-- ==== Sys2Proof/Word.lean ====
section
/-! DEFINITION. The data word of the machine (00_scope.md R9, R11). -/

namespace Sys2Proof

/-- The unit of data: registers, memory cells, operand bytes and emitted values are unsigned numbers in
[0,255] (00_scope.md R9 `WORD`, R11). -/
abbrev Byte := BitVec 8

end Sys2Proof
end

