-- ==== Sys2Proof/Syntax.lean ====
section
/-! DEFINITION. The thirteen instructions (30_encoding.md R81, R84): one constructor of Instr per row of
spec/opcode_table.json. -/

namespace Sys2Proof

/-- The thirteen names an opcode byte can stand for (30_encoding.md R84). -/
inductive Mnemonic where
  | hlt | ldi | prn | add | mul | cmp | push | pop | call | ret | jmp | jeq | jne
  deriving DecidableEq, Repr

/-- The mnemonics in the order of the table of 30_encoding.md R84. -/
def Mnemonic.all : List Mnemonic :=
  [.hlt, .ldi, .prn, .add, .mul, .cmp, .push, .pop, .call, .ret, .jmp, .jeq, .jne]

/-- The four formats of 30_encoding.md R81: no operand byte; a register; a register and an immediate;
two registers. -/
inductive Format where
  | f1 | f2r | f3i | f3rr
  deriving DecidableEq, Repr

/-- The format of each instruction (30_encoding.md R81). -/
def Mnemonic.format : Mnemonic → Format
  | .hlt | .ret => .f1
  | .prn | .push | .pop | .call | .jmp | .jeq | .jne => .f2r
  | .ldi => .f3i
  | .add | .mul | .cmp => .f3rr

/-- An instruction with the operand bytes it uses. A register operand is the WHOLE operand byte, not masked to
three bits (30_encoding.md R82): whether it names a register is checked when the instruction runs
(40_cycle.md R113), so a decoded instruction may hold an index above 7. -/
inductive Instr where
  /-- HLT: halt (41_data_io.md R130). -/
  | hlt
  /-- LDI Rn, imm: load immediate (41_data_io.md R131). -/
  | ldi (n imm : Byte)
  /-- PRN Rn: print register (41_data_io.md R132). -/
  | prn (n : Byte)
  /-- ADD Ra, Rb (42_alu.md R153). -/
  | add (a b : Byte)
  /-- MUL Ra, Rb (42_alu.md R154). -/
  | mul (a b : Byte)
  /-- CMP Ra, Rb (42_alu.md R155). -/
  | cmp (a b : Byte)
  /-- PUSH Rn (43_stack.md R175). -/
  | push (n : Byte)
  /-- POP Rn (43_stack.md R176). -/
  | pop (n : Byte)
  /-- CALL Rn (44_control.md R191). -/
  | call (n : Byte)
  /-- RET (44_control.md R192). -/
  | ret
  /-- JMP Rn (44_control.md R193). -/
  | jmp (n : Byte)
  /-- JEQ Rn (44_control.md R194). -/
  | jeq (n : Byte)
  /-- JNE Rn (44_control.md R195). -/
  | jne (n : Byte)
  deriving DecidableEq, Repr

/-- The name of an instruction. -/
def Instr.mnemonic : Instr → Mnemonic
  | .hlt => .hlt
  | .ldi _ _ => .ldi
  | .prn _ => .prn
  | .add _ _ => .add
  | .mul _ _ => .mul
  | .cmp _ _ => .cmp
  | .push _ => .push
  | .pop _ => .pop
  | .call _ => .call
  | .ret => .ret
  | .jmp _ => .jmp
  | .jeq _ => .jeq
  | .jne _ => .jne

/-- The operand bytes that follow the opcode, in the order of memory (30_encoding.md R90, R92). -/
def Instr.operandBytes : Instr → List Byte
  | .hlt => []
  | .ldi n imm => [n, imm]
  | .prn n => [n]
  | .add a b => [a, b]
  | .mul a b => [a, b]
  | .cmp a b => [a, b]
  | .push n => [n]
  | .pop n => [n]
  | .call n => [n]
  | .ret => []
  | .jmp n => [n]
  | .jeq n => [n]
  | .jne n => [n]

/-- The operand bytes that are register indices, operand A before operand B (30_encoding.md R81, R82): LDI's
second byte is its immediate and is none. -/
def Instr.registerOperands : Instr → List Byte
  | .hlt => []
  | .ldi n _ => [n]
  | .prn n => [n]
  | .add a b => [a, b]
  | .mul a b => [a, b]
  | .cmp a b => [a, b]
  | .push n => [n]
  | .pop n => [n]
  | .call n => [n]
  | .ret => []
  | .jmp n => [n]
  | .jeq n => [n]
  | .jne n => [n]

end Sys2Proof
end

