-- ==== Sys2Proof/Config.lean ====
section
/-! DEFINITION. What is fixed for the machine and is not state: the constants of 00_scope.md R9 and the open
parameter `OPCODE_MAP` of R10 (00_scope.md R16). The spec leaves no value undefined, so there is no free value.
The default map stands in Decode.lean. -/

namespace Sys2Proof

namespace Config

/-- `MEM_SIZE`: addresses 0 to 255 (00_scope.md R9). -/
abbrev memSize : Nat := 256

/-- `NREGS` (00_scope.md R9). -/
abbrev numRegs : Nat := 8

/-- `PC_RESET` (00_scope.md R9, 10_state.md R26). -/
abbrev pcReset : Nat := 0

/-- `SP_RESET` (00_scope.md R9, 10_state.md R28; D21: the source's literal is normative). -/
abbrev spReset : Nat := 0xF3

/-- `LOAD_BASE` (00_scope.md R9). -/
abbrev loadBase : Nat := 0

end Config

/-- `OPCODE_MAP`: the byte value of each mnemonic (00_scope.md R10, 30_encoding.md R84, decision D1). -/
abbrev OpcodeMap := Mnemonic → Byte

/-- "thirteen distinct bytes, one per mnemonic" (30_encoding.md R84). -/
abbrev OpcodeMap.Valid (m : OpcodeMap) : Prop := (Mnemonic.all.map m).Nodup

end Sys2Proof
end

