-- ==== Sys2Proof/Machine/State.lean ====
section
/-! DEFINITION. Everything the spec gives the machine, as plain data (10_state.md), the reasons a step can stop,
and the state after reset. -/

namespace Sys2Proof.Machine

/-- A selector given to the ALU (42_alu.md R150, R151). The decoder hands it only the first three; `other`
stands for any selector outside them. DESIGN CHOICE (log entry 4, safe): the spec fixes no type for those, so they
are numbered. -/
inductive AluOp where
  | add | mul | cmp
  | other (selector : Nat)
  deriving DecidableEq, Repr

/-- The four fault causes with the value each records (60_exceptions.md R220). The operations of the machine raise
them (`Except Fault`); `takeFault` turns a raised one into the next state that R226 describes. A step therefore
never ANSWERS `Outcome.fault` (log entry 3, safe). -/
inductive Fault where
  /-- Raised by `memRead` and `memWrite` for an integer address outside [0,255]: the fetch, PUSH, CALL, POP, RET
  (R221). Safe: the fault the spec gives. -/
  | addressOutOfRange (addr : Int)
  /-- Raised by `regIndex` for an operand byte above 7 that an instruction uses as a register index (R222). Safe:
  the fault the spec gives. -/
  | registerOutOfRange (index : Byte)
  /-- Raised by `aluExecute` for a selector outside ADD, MUL, CMP; no opcode reaches it (R223). Safe: the fault the
  spec gives. -/
  | unsupportedALUOperation (op : AluOp)
  /-- Raised by `fetchDecode` for an opcode byte outside `OPCODE_MAP` (R224). Safe: the fault the spec gives. -/
  | invalidOpcode (op : Byte)
  deriving DecidableEq, Repr

/-- Why a step gives no meaning. -/
inductive Refusal where
  /-- Raised by no arm of `exec` now: every instruction of the opcode table has its meaning. Safe: it would stop a
  run, never invent one. -/
  | notModelled (mnemonic : String)
  deriving DecidableEq, Repr

/-- The fault record of `Faulted(cause, info)`: the cause with its own value, and the address of the instruction
that faulted (10_state.md R34). -/
structure FaultRecord where
  cause : Fault
  pc : Nat
  deriving DecidableEq, Repr

/-- The run status (10_state.md R33). -/
inductive Status where
  | running
  | halted
  | faulted (r : FaultRecord)
  deriving DecidableEq, Repr

/-- The flag register: three independent bits (10_state.md R29, R31). -/
structure Flags where
  /-- E, Equal -/
  e : Bool
  /-- L, LessThan -/
  l : Bool
  /-- G, GreaterThan -/
  g : Bool
  deriving DecidableEq, Repr

/-- The 256 cells as the list of those that are not 0, by strictly rising address (log entry 6): an unlisted
address reads as 0, the reset value of every cell (10_state.md R32). -/
abbrev Memory := List Host.Cell

/-- The whole architectural state (10_state.md, opening and R38). -/
structure State where
  /-- x[0] … x[7] (R20) -/
  regs : Vector Byte 8
  /-- the address of the opcode byte of the instruction being executed; an exact integer (R25, R27) -/
  pc : Nat
  /-- the dedicated stack pointer; an exact integer (R28) -/
  sp : Nat
  /-- E, L, G (R29) -/
  flags : Flags
  /-- Running, Halted or Faulted with its record (R33, R34) -/
  status : Status
  /-- mem[0..255] (R32) -/
  mem : Memory
  /-- the values PRN emitted, oldest first (R35) -/
  out : List Byte
  deriving DecidableEq, Repr

/-- The state right after reset, which is construction (10_state.md R38, 70_reset_and_hazards.md R260): the spec
states every value. -/
def State.reset : State where
  regs := Vector.replicate 8 0
  pc := Config.pcReset
  sp := Config.spReset
  flags := ⟨false, false, false⟩
  status := .running
  mem := []
  out := []

end Sys2Proof.Machine
end

