-- ==== Sys2Proof/Machine/Flags.lean ====
section
/-! DEFINITION. The one flag computation of the machine, CMP's, and the packed view of the flags. -/

namespace Sys2Proof.Machine

/-- The flags after comparing two unsigned bytes (42_alu.md R155, R157). -/
def compareFlags (va vb : Byte) : Flags where
  e := decide (va.toNat = vb.toNat)
  l := decide (va.toNat < vb.toNat)
  g := decide (va.toNat > vb.toNat)

/-- The packed view `0b00000LGE` for diagnostics; no instruction reads it (10_state.md R31, decision D15). -/
def Flags.packed (f : Flags) : Byte :=
  BitVec.ofNat 8 (4 * f.l.toNat + 2 * f.g.toNat + f.e.toNat)

end Sys2Proof.Machine
end

