-- ==== Sys2Proof/Machine/Ops.lean ====
section
/-! DEFINITION. The named operations over memory, the stack and the state, and taking a fault. -/

namespace Sys2Proof.Machine

/-! ### Memory as data -/

/-- What a memory list holds at an address: an unlisted address reads as 0 (10_state.md R32). -/
def Memory.read : Memory → Nat → Byte
  | [], _ => 0
  | (k, v) :: rest, a => if k = a then v else Memory.read rest a

/-- The list with one cell changed, kept in canonical form: writing 0 removes the entry. -/
def Memory.write : Memory → Nat → Byte → Memory
  | [], a, v => if v = 0 then [] else [(a, v)]
  | (k, w) :: rest, a, v =>
    if a < k then (if v = 0 then (k, w) :: rest else (a, v) :: (k, w) :: rest)
    else if a = k then (if v = 0 then rest else (a, v) :: rest)
    else (k, w) :: Memory.write rest a v

/-- The canonical form from address `lo` on: addresses strictly rising and below 256, no entry 0. -/
def Memory.wfFrom : Nat → Memory → Bool
  | _, [] => true
  | lo, (k, v) :: rest => decide (lo ≤ k) && decide (k < Config.memSize) && decide (v ≠ 0) && Memory.wfFrom (k + 1) rest

/-- The canonical form of a memory. -/
def Memory.wf (m : Memory) : Bool := Memory.wfFrom 0 m

/-! ### Writing one piece of state -/

def State.setPc (s : State) (v : Nat) : State := { s with pc := v }

def State.setSp (s : State) (v : Nat) : State := { s with sp := v }

def State.setFlags (s : State) (f : Flags) : State := { s with flags := f }

def State.setStatus (s : State) (v : Status) : State := { s with status := v }

def State.setMem (s : State) (m : Memory) : State := { s with mem := m }

/-- `x[i]`, the value of general register i (00_scope.md R12). -/
def State.x (s : State) (i : Fin 8) : Byte := s.regs[i]

/-- Storing a byte in general register i: no other register changes (10_state.md R21). -/
def State.setX (s : State) (i : Fin 8) (v : Byte) : State := { s with regs := s.regs.set i v }

/-- `emit(v)`: append a value to the output sequence (00_scope.md R12, 10_state.md R35). -/
def State.emit (s : State) (v : Byte) : State := { s with out := s.out ++ [v] }

/-- The sequential advance: exact, never reduced modulo 256 (40_cycle.md R116, 10_state.md R27). -/
def State.advance (s : State) (len : Nat) : State := s.setPc (s.pc + len)

/-- The source's `running` boolean (10_state.md R33). -/
def State.isRunning (s : State) : Bool := decide (s.status = .running)

/-! ### The memory port -/

/-- `MemRead(addr, 1)` at an integer address (20_memory.md R50). -/
def memRead (addr : Int) (s : State) : Except Fault Byte :=
  if 0 ≤ addr ∧ addr ≤ 255 then .ok (s.mem.read addr.toNat) else .error (.addressOutOfRange addr)

/-- `MemWrite(addr, 1, v)` at an integer address (20_memory.md R51). -/
def memWrite (addr : Int) (v : Byte) (s : State) : Except Fault State :=
  if 0 ≤ addr ∧ addr ≤ 255 then .ok (s.setMem (s.mem.write addr.toNat v)) else .error (.addressOutOfRange addr)

/-! ### The stack controller -/

/-- The address a push writes: sp − 1, exact (43_stack.md R171, 20_memory.md R59). -/
def pushAddress (s : State) : Int := (s.sp : Int) - 1

/-- `push(v)`: decrement first, then write at the new sp (43_stack.md R171). -/
def push (v : Byte) (s : State) : Except Fault State := do
  let t := pushAddress s
  let s1 ← memWrite t v s
  return s1.setSp t.toNat

/-- `pop()`: read at sp first, then increment; the byte stays in memory (43_stack.md R172). -/
def pop (s : State) : Except Fault (Byte × State) := do
  let v ← memRead s.sp s
  return (v, s.setSp (s.sp + 1))

/-! ### Taking a fault -/

/-- Fault entry: the state before the step with `status <- Faulted(cause, info)`, where the record holds the
address of the faulting instruction; nothing else changes (60_exceptions.md R226, R227). There is no return from
one (R228). -/
def takeFault (f : Fault) (s : State) : State := s.setStatus (.faulted ⟨f, s.pc⟩)

/-- Commit (40_cycle.md R115): all writes of the instruction together, or, if a phase raised a fault, none of them
and fault entry from the state `s` before the step. -/
def commit (s : State) (r : Except Fault State) : Host.Outcome State Fault Refusal :=
  match r with
  | .ok t => .next t
  | .error f => .next (takeFault f s)

/-- The cause codes (60_exceptions.md R220, decision D19). -/
def Fault.code : Fault → Nat
  | .addressOutOfRange _ => 1
  | .registerOutOfRange _ => 2
  | .unsupportedALUOperation _ => 3
  | .invalidOpcode _ => 4

end Sys2Proof.Machine
end

