-- ==== Sys2Proof/Machine/Operands.lean ====
section
/-! DEFINITION. The operand forms: register by whole operand byte, immediate, register-indirect target
(30_encoding.md R82, R83; 44_control.md R190), and the register file's two operations (10_state.md R21, R22). -/

namespace Sys2Proof.Machine

/-- The register an operand byte names: the whole byte, which must be in [0,7] (10_state.md R22, 30_encoding.md
R82). -/
def regIndex (v : Byte) : Except Fault (Fin 8) :=
  if h : v.toNat < 8 then .ok ⟨v.toNat, h⟩ else .error (.registerOutOfRange v)

/-- The operand byte that names a register: its index (30_encoding.md R92). -/
def registerByte (k : Fin 8) : Byte := BitVec.ofNat 8 k.val

/-- `get(i)` of the register file (10_state.md R21). -/
def regGet (i : Byte) (s : State) : Except Fault Byte := do
  let k ← regIndex i
  return s.x k

/-- `set(i, v)` of the register file, v an exact integer: it stores v mod 256 (10_state.md R21). -/
def regSet (i : Byte) (v : Nat) (s : State) : Except Fault State := do
  let k ← regIndex i
  return s.setX k (BitVec.ofNat 8 v)

/-- The immediate operand: the byte as it is (30_encoding.md R83). -/
def immediate (b : Byte) : Nat := b.toNat

/-- A jump, call or return target: absolute, the 8-bit value of a register or of a popped byte (44_control.md
R190). -/
def target (v : Byte) : Nat := v.toNat

/-- The return address CALL pushes: pc + 2 as a byte (44_control.md R191). DEDUCED (log entry 5, safe): after a
fetch pc + 2 is at most 255, so nothing is lost; a pc above 253 is met only by calling `exec` outside a step. -/
def returnAddress (s : State) : Byte := BitVec.ofNat 8 (s.pc + 2)

end Sys2Proof.Machine
end

