-- ==== Sys2Proof/Machine/Alu.lean ====
section
/-! DEFINITION. The 8-bit ALU and its instructions ADD, MUL, CMP (42_alu.md). -/

namespace Sys2Proof.Machine

/-- `execute(op, regA, regB)` (42_alu.md R150): ADD and MUL compute exactly and the register file keeps the low 8
bits (R152); CMP writes the three flags (R155); any other selector fails (R151). Operand A is checked before
operand B (40_cycle.md R113). -/
def aluExecute (op : AluOp) (a b : Byte) (s : State) : Except Fault State :=
  match op with
  | .add => do
    let va ← regGet a s
    let vb ← regGet b s
    regSet a (va.toNat + vb.toNat) s
  | .mul => do
    let va ← regGet a s
    let vb ← regGet b s
    regSet a (va.toNat * vb.toNat) s
  | .cmp => do
    let va ← regGet a s
    let vb ← regGet b s
    return s.setFlags (compareFlags va vb)
  | .other n => .error (.unsupportedALUOperation (.other n))

/-- ADD Ra, Rb (42_alu.md R153). -/
def execAdd (a b : Byte) (s : State) : Host.Outcome State Fault Refusal :=
  commit s do
    let t ← aluExecute .add a b s
    return t.advance 3

/-- MUL Ra, Rb (42_alu.md R154). -/
def execMul (a b : Byte) (s : State) : Host.Outcome State Fault Refusal :=
  commit s do
    let t ← aluExecute .mul a b s
    return t.advance 3

/-- CMP Ra, Rb (42_alu.md R155). -/
def execCmp (a b : Byte) (s : State) : Host.Outcome State Fault Refusal :=
  commit s do
    let t ← aluExecute .cmp a b s
    return t.advance 3

end Sys2Proof.Machine
end

