-- ==== Sys2Proof/Machine/Control.lean ====
section
/-! DEFINITION. CALL, RET, JMP, JEQ and JNE (44_control.md). -/

namespace Sys2Proof.Machine

/-- CALL Rn (44_control.md R191): the target is read before the return address is pushed. -/
def execCall (n : Byte) (s : State) : Host.Outcome State Fault Refusal :=
  commit s do
    let v ← regGet n s
    let t ← push (returnAddress s) s
    return t.setPc (target v)

/-- RET (44_control.md R192). -/
def execRet (s : State) : Host.Outcome State Fault Refusal :=
  commit s do
    let (v, t) ← pop s
    return t.setPc (target v)

/-- A taken jump through a register operand (44_control.md R190, R193). -/
def jumpTo (n : Byte) (s : State) : Except Fault State := do
  let v ← regGet n s
  return s.setPc (target v)

/-- JMP Rn (44_control.md R193). -/
def execJmp (n : Byte) (s : State) : Host.Outcome State Fault Refusal :=
  commit s (jumpTo n s)

/-- JEQ Rn (44_control.md R194): the operand is read and checked only on the taken path. -/
def execJeq (n : Byte) (s : State) : Host.Outcome State Fault Refusal :=
  commit s (if s.flags.e then jumpTo n s else .ok (s.advance 2))

/-- JNE Rn (44_control.md R195): the operand is read and checked only on the taken path. -/
def execJne (n : Byte) (s : State) : Host.Outcome State Fault Refusal :=
  commit s (if s.flags.e then .ok (s.advance 2) else jumpTo n s)

end Sys2Proof.Machine
end

