-- ==== Sys2Proof/Machine/DataIo.lean ====
section
/-! DEFINITION. HLT, LDI and PRN (41_data_io.md). -/

namespace Sys2Proof.Machine

/-- HLT: status becomes Halted, pc keeps the address of the HLT (41_data_io.md R130). -/
def execHlt (s : State) : Host.Outcome State Fault Refusal :=
  commit s (.ok (s.setStatus .halted))

/-- LDI Rn, imm (41_data_io.md R131). -/
def execLdi (n imm : Byte) (s : State) : Host.Outcome State Fault Refusal :=
  commit s do
    let t ← regSet n (immediate imm) s
    return t.advance 3

/-- PRN Rn (41_data_io.md R132). -/
def execPrn (n : Byte) (s : State) : Host.Outcome State Fault Refusal :=
  commit s do
    let v ← regGet n s
    return (s.emit v).advance 2

end Sys2Proof.Machine
end

