-- ==== Sys2Proof/Machine/Stack.lean ====
section
/-! DEFINITION. PUSH and POP (43_stack.md). -/

namespace Sys2Proof.Machine

/-- PUSH Rn (43_stack.md R175): the operand is checked and read before the stack is touched. -/
def execPush (n : Byte) (s : State) : Host.Outcome State Fault Refusal :=
  commit s do
    let v ← regGet n s
    let t ← push v s
    return t.advance 2

/-- POP Rn (43_stack.md R176): the operand is checked before the stack is read (40_cycle.md R113). -/
def execPop (n : Byte) (s : State) : Host.Outcome State Fault Refusal :=
  commit s do
    let k ← regIndex n
    let (v, t) ← pop s
    return (t.setX k v).advance 2

end Sys2Proof.Machine
end

