-- ==== Sys2Proof/Decode.lean ====
section
/-! DEFINITION. Decoding and encoding (30_encoding.md). The decoder matches the whole opcode byte against
`OPCODE_MAP` (R86) and never reads fields of it (R85); it is total and rejects by name. -/

namespace Sys2Proof

/-- The default of `OPCODE_MAP`: the table of 30_encoding.md R84. PRESUMED (log entry 1, unsafe): the spec takes
these values from general knowledge of the LS-8 machine (D1). -/
def defaultOpcodeMap : OpcodeMap
  | .hlt => 0x01
  | .ldi => 0x82
  | .prn => 0x47
  | .add => 0xA0
  | .mul => 0xA2
  | .cmp => 0xA7
  | .push => 0x45
  | .pop => 0x46
  | .call => 0x50
  | .ret => 0x11
  | .jmp => 0x54
  | .jeq => 0x55
  | .jne => 0x56

/-- The instruction length in bytes of a format (30_encoding.md R81). -/
def Format.length : Format → Nat
  | .f1 => 1
  | .f2r => 2
  | .f3i => 3
  | .f3rr => 3

/-- The instruction length in bytes, told by the opcode alone (30_encoding.md R81, R89). -/
def Instr.length (i : Instr) : Nat := i.mnemonic.format.length

/-- The three bytes read on every step (30_encoding.md R80). -/
structure Window where
  /-- byte 0, at pc: the opcode -/
  op : Byte
  /-- byte 1, at pc + 1: operand A -/
  a : Byte
  /-- byte 2, at pc + 2: operand B -/
  b : Byte
  deriving DecidableEq, Repr

/-- Why bytes are no instruction. -/
inductive DecodeError where
  /-- The opcode byte is none of the thirteen of `OPCODE_MAP` (30_encoding.md R86). Safe: the step takes the
  InvalidOpcode fault the spec gives it. -/
  | invalidOpcode (op : Byte)
  /-- Fewer than the three bytes of the fetch window were given. DESIGN CHOICE (log entry 9, safe): only a caller
  of `decode` on a short list meets it, since a step always has the whole window. -/
  | truncated
  deriving DecidableEq, Repr

/-- The mnemonic whose byte is exactly `op`, if there is one (30_encoding.md R86). -/
def OpcodeMap.lookup (m : OpcodeMap) (op : Byte) : Option Mnemonic :=
  Mnemonic.all.find? fun k => m k == op

/-- The instruction a mnemonic and the two operand bytes make; bytes it does not use are ignored
(30_encoding.md R81, R88). -/
def Mnemonic.toInstr (k : Mnemonic) (a b : Byte) : Instr :=
  match k with
  | .hlt => .hlt
  | .ldi => .ldi a b
  | .prn => .prn a
  | .add => .add a b
  | .mul => .mul a b
  | .cmp => .cmp a b
  | .push => .push a
  | .pop => .pop a
  | .call => .call a
  | .ret => .ret
  | .jmp => .jmp a
  | .jeq => .jeq a
  | .jne => .jne a

/-- Decoding of a fetch window (30_encoding.md R86, 40_cycle.md R112). -/
def decodeWindow (m : OpcodeMap) (w : Window) : Except DecodeError Instr :=
  match m.lookup w.op with
  | some k => .ok (k.toInstr w.a w.b)
  | none => .error (.invalidOpcode w.op)

/-- Decoding of the instruction at the head of any bytes. -/
def decode (m : OpcodeMap) : List Byte → Except DecodeError Instr
  | op :: a :: b :: _ => decodeWindow m ⟨op, a, b⟩
  | _ => .error .truncated

/-- The fetch window of a word numbered as spec/opcode_table.json numbers it: byte 0 is bits 7..0, byte 1 bits
15..8, byte 2 bits 23..16; the bits from `nbits` up are 0. -/
def windowOfWord (nbits w : Nat) : Window :=
  let v := w % 2 ^ nbits
  ⟨BitVec.ofNat 8 v, BitVec.ofNat 8 (v / 256), BitVec.ofNat 8 (v / 65536)⟩

/-- The instruction the decoder reads, with the default map, from a word of `nbits` bits of the opcode table. -/
def decodeTableWord (nbits w : Nat) : Option Instr :=
  match decodeWindow defaultOpcodeMap (windowOfWord nbits w) with
  | .ok i => some i
  | .error _ => none

/-- The bytes of an instruction (30_encoding.md R92), for any map: the opcode byte, then its operand bytes. -/
def encode (m : OpcodeMap) (i : Instr) : List Byte := m i.mnemonic :: i.operandBytes

/-- The name as the assembly writes it (30_encoding.md R84, R90). -/
def Mnemonic.text : Mnemonic → String
  | .hlt => "HLT"
  | .ldi => "LDI"
  | .prn => "PRN"
  | .add => "ADD"
  | .mul => "MUL"
  | .cmp => "CMP"
  | .push => "PUSH"
  | .pop => "POP"
  | .call => "CALL"
  | .ret => "RET"
  | .jmp => "JMP"
  | .jeq => "JEQ"
  | .jne => "JNE"

/-- A register operand in assembly: `R0` to `R7` (30_encoding.md R90). -/
def registerText (v : Byte) : String := "R" ++ toString v.toNat

/-- The assembly text of an instruction: the mnemonic, then its operands separated by commas, registers as Rn and
the immediate in decimal (00_scope.md R13, 30_encoding.md R90). -/
def Instr.assembly (i : Instr) : String :=
  match i with
  | .ldi n imm => i.mnemonic.text ++ " " ++ registerText n ++ "," ++ toString imm.toNat
  | _ =>
    match i.registerOperands with
    | [] => i.mnemonic.text
    | v :: vs => vs.foldl (fun t u => t ++ "," ++ registerText u) (i.mnemonic.text ++ " " ++ registerText v)

end Sys2Proof
end

