-- ==== Sys2Proof/Machine/Fetch.lean ====
section
/-! DEFINITION. The fetch and decode phases (40_cycle.md R111, R112), and placing a word where the next step
fetches. -/

namespace Sys2Proof.Machine

/-- Fetch: the bytes at pc, pc + 1, pc + 2, in this order, on every step (40_cycle.md R111). -/
def fetch (s : State) : Except Fault Window := do
  let op ← memRead s.pc s
  let a ← memRead (s.pc + 1) s
  let b ← memRead (s.pc + 2) s
  return ⟨op, a, b⟩

/-- Fetch, then decode: an opcode byte outside the map raises InvalidOpcode (40_cycle.md R112). -/
def fetchDecode (m : OpcodeMap) (s : State) : Except Fault Instr := do
  let w ← fetch s
  match decodeWindow m w with
  | .ok i => return i
  | .error _ => .error (.invalidOpcode w.op)

/-- A state with the three bytes of a window at pc, pc + 1, pc + 2, where those addresses exist (pc at most 253);
nothing else changes. -/
def placeWindow (s : State) (w : Window) : State :=
  if s.pc ≤ 253 then
    s.setMem (((s.mem.write s.pc w.op).write (s.pc + 1) w.a).write (s.pc + 2) w.b)
  else s

end Sys2Proof.Machine
end

