-- ==== Sys2Proof/Machine/Step.lean ====
section
/-! DEFINITION. The fetch-decode-execute step (40_cycle.md R117). -/

namespace Sys2Proof.Machine

/-- One step under an opcode map: nothing on an engine that is not Running (R110); fetch, decode, then the
instruction's own checks and execute phase; a fault of fetch or decode is taken here, one of the instruction by its
meaning (R115, R117). -/
def stepWith (m : OpcodeMap) (s : State) : Host.Outcome State Fault Refusal :=
  if s.isRunning then
    match fetchDecode m s with
    | .ok i => exec i s
    | .error f => .next (takeFault f s)
  else .next s

/-- One step with the default opcode map (log entry 1). -/
def step (s : State) : Host.Outcome State Fault Refusal := stepWith defaultOpcodeMap s

/-- `s` with a word of the opcode table stored at pc, pc + 1, pc + 2, the bits from `nbits` up being 0. It changes
nothing but those three cells (log entry 7): a Running `s` with pc at most 253 then fetches exactly this word. -/
def State.withFetchWord (s : State) (nbits w : Nat) : State :=
  placeWindow s (windowOfWord nbits w)

end Sys2Proof.Machine
end

