-- ==== Sys2Proof/Machine/HostPort.lean ====
section
/-! DEFINITION. What the host can do to the block (70_reset_and_hazards.md R262 to R267, 40_cycle.md R120 to R122):
load a program, run with a step budget, show the output. -/

namespace Sys2Proof.Machine

/-- Why a load is refused as a whole (70_reset_and_hazards.md R264). -/
inductive LoadRefusal where
  /-- more than 256 values -/
  | tooLong (n : Nat)
  /-- a value outside [0,255] -/
  | badValue (v : Int)
  /-- the engine is not in the reset state -/
  | notReset
  deriving DecidableEq, Repr

/-- The cells `a`, `a + 1`, … of a memory set to a list of bytes. -/
def Memory.load (mem : Memory) (a : Nat) : List Byte → Memory
  | [] => mem
  | v :: vs => Memory.load (mem.write a v) (a + 1) vs

/-- `load_bytes(p)`: `mem[i] <- p_i`, nothing else (70_reset_and_hazards.md R263), or refused as a whole (R264,
decision D14). DEDUCED (log entry 10, safe): "a reset engine before its first step" is a state equal to the reset
state. -/
def loadBytes (p : List Int) (s : State) : Except LoadRefusal State :=
  if s ≠ State.reset then .error .notReset
  else if Config.memSize < p.length then .error (.tooLong p.length)
  else match p.find? fun v => decide (v < 0 ∨ 255 < v) with
    | some v => .error (.badValue v)
    | none => .ok (s.setMem (s.mem.load Config.loadBase (p.map (BitVec.ofInt 8))))

/-- The launch state of an image (70_reset_and_hazards.md R266); an image longer than memory is refused whole and
leaves the reset state (R264). -/
def launch (p : List Byte) : State :=
  match loadBytes (p.map fun v => (v.toNat : Int)) State.reset with
  | .ok t => t
  | .error _ => State.reset

/-- `run()` with a budget of `fuel` steps: step while Running (40_cycle.md R120, decision D20). A run that the
budget cuts ends in a state that is still Running. -/
def runWith (m : OpcodeMap) : Nat → State → Host.Outcome State Fault Refusal
  | 0, s => .next s
  | fuel + 1, s =>
    if s.isRunning then
      match stepWith m s with
      | .next t => runWith m fuel t
      | .fault f => .fault f
      | .refused r => .refused r
    else .next s

/-- `run()` with the default opcode map. -/
def run (fuel : Nat) (s : State) : Host.Outcome State Fault Refusal := runWith defaultOpcodeMap fuel s

/-- The line the host shows for one emitted value: decimal digits with no leading zeros and no sign, then a line end
(41_data_io.md R133). -/
def renderValue (v : Byte) : String := toString v.toNat ++ "\n"

/-- The host's text of an output sequence, one value a line (41_data_io.md R133). -/
def renderOutput (out : List Byte) : String := out.foldl (fun t v => t ++ renderValue v) ""

end Sys2Proof.Machine
end

