-- ==== Sys2Proof/Safety.lean ====
section
/-! DEFINITION. The end of a run and the invariant of the machine, in the terms the statements use. -/

namespace Sys2Proof.Machine

/-- A run has ended: status is Halted or Faulted (40_cycle.md R122). -/
def State.ended (s : State) : Bool := !s.isRunning

/-- The successful end: Halted, with no fault recorded (40_cycle.md R122). -/
def State.succeeded (s : State) : Bool := decide (s.status = .halted)

/-- An unbounded `run()` from `s` ends in `t` (40_cycle.md R120, R122). A run need not end
(70_reset_and_hazards.md R273). -/
def Ends (m : OpcodeMap) (s t : State) : Prop :=
  ∃ fuel, runWith m fuel s = .next t ∧ t.ended = true

/-- At most one of E, L, G is set (10_state.md R30). -/
def Flags.exclusive (f : Flags) : Bool := !(f.e && f.l) && !(f.e && f.g) && !(f.l && f.g)

/-- A cause is one the state can have raised (60_exceptions.md R221 to R224): the address is 256, of a fetch near
the end of memory or a pop at sp = 256, or −1, of a push at sp = 0; the operand byte is above 7 and stands behind
the opcode; the ALU's own fault never arises; the opcode byte stands at pc and is not in the map. -/
def Fault.explainedBy (m : OpcodeMap) (s : State) : Fault → Bool
  | .addressOutOfRange a =>
    (decide (a = 256) && (decide (254 ≤ s.pc) || decide (s.sp = 256))) ||
      (decide (a = -1) && decide (s.sp = 0))
  | .registerOutOfRange v =>
    decide (7 < v.toNat) && decide (s.pc ≤ 253) &&
      (s.mem.read (s.pc + 1) == v || s.mem.read (s.pc + 2) == v)
  | .unsupportedALUOperation _ => false
  | .invalidOpcode op =>
    decide (s.pc ≤ 253) && s.mem.read s.pc == op && m.lookup op == none

/-- The status fits the rest of the state: a halted engine's pc is the address of its HLT (41_data_io.md R130); a
fault record names the pc, and its cause is explained by the state, which no later step changes. -/
def State.statusFits (m : OpcodeMap) (s : State) : Bool :=
  match s.status with
  | .running => true
  | .halted => decide (s.pc ≤ 253) && m.lookup (s.mem.read s.pc) == some .hlt
  | .faulted r => decide (r.pc = s.pc) && r.cause.explainedBy m s

/-- The machine's invariant: memory in canonical form, pc and sp in [0,256] (10_state.md R27, R28), flags mutually
exclusive (R30), and a status that fits. -/
abbrev Inv (m : OpcodeMap) (s : State) : Prop :=
  s.mem.wf = true ∧ s.pc ≤ 256 ∧ s.sp ≤ 256 ∧ s.flags.exclusive = true ∧ s.statusFits m = true

end Sys2Proof.Machine
end

