-- ==== Sys2Proof/WellFormed.lean ====
section
/-! DEFINITION. Which instructions the assembly can write (30_encoding.md R92): every register operand is in [0,7].
An ill-formed instruction still decodes and runs (to a RegisterOutOfRange fault, or past a jump not taken); see
40_cycle.md R113. -/

namespace Sys2Proof

/-- Every register operand names one of R0 to R7 (30_encoding.md R82, R92). The immediate of LDI is never checked
(41_data_io.md R131). -/
def Instr.wellFormed (i : Instr) : Bool :=
  i.registerOperands.all fun v => decide (v.toNat ≤ 7)

end Sys2Proof
end

