-- ==== Sys2Proof/Certificates/Slice0/Obligations.lean ====
section
/-! DEFINITION. The statements for the provers, one def per obligation. A register operand `registerByte k`, k from 0
to 7, is every operand byte that names a register; bytes above 7 have statements of their own. -/

open Sys2Proof Sys2Proof.Machine

namespace Sys2Proof.Machine

/-- Every byte of memory reads as before. -/
def SameMemory (s t : State) : Prop := ∀ a : Int, memRead a t = memRead a s

/-- Every byte of memory but the one at `a` reads as before. -/
def SameMemoryExcept (a : Int) (s t : State) : Prop := ∀ b : Int, b ≠ a → memRead b t = memRead b s

/-- Every general register is as before. -/
def SameRegisters (s t : State) : Prop := ∀ k : Fin 8, t.x k = s.x k

/-- Every general register but x[i] is as before. -/
def SameRegistersExcept (i : Fin 8) (s t : State) : Prop := ∀ k : Fin 8, k ≠ i → t.x k = s.x k

/-- The operand bytes an instruction uses as register indices, in the order they are checked, when the flag E is
`e`: the table of 40_cycle.md R113. -/
def usedRegisterOperands (i : Instr) (e : Bool) : List Byte :=
  match i with
  | .hlt | .ret => []
  | .ldi n _ => [n]
  | .prn n | .push n | .pop n | .call n | .jmp n => [n]
  | .jeq n => if e then [n] else []
  | .jne n => if e then [] else [n]
  | .add a b | .mul a b | .cmp a b => [a, b]

/-- The opcode byte of the next step is the byte the map gives the mnemonic `k`, and the whole fetch window is in
memory. -/
def AtMnemonic (m : OpcodeMap) (s : State) (k : Mnemonic) : Prop :=
  s.status = .running ∧ s.pc ≤ 253 ∧ memRead s.pc s = .ok (m k)

end Sys2Proof.Machine

/-! ### Reset -/

/-- 10_state.md section 9 (the table of reset values). The empty output is the spec's decision D13. -/
def Obligations.ResetStateValues : Prop :=
  (∀ k, State.reset.x k = 0) ∧ State.reset.pc = 0 ∧ State.reset.sp = 0xF3 ∧
  State.reset.flags.e = false ∧ State.reset.flags.l = false ∧ State.reset.flags.g = false ∧
  State.reset.status = .running ∧ State.reset.out = [] ∧
  ∀ a : Int, 0 ≤ a → a ≤ 255 → memRead a State.reset = .ok 0

/-- The invariant of Safety.lean holds at reset, whatever the opcode map. -/
def Obligations.ResetSatisfiesInvariant : Prop := ∀ m, Inv m State.reset

/-! ### The step as a whole -/

/-- From EVERY state with the invariant, a step gives a state with it: memory stays canonical, pc and sp stay in
[0,256] (10_state.md sections 2 and 3), at most one flag is set (section 4), and the status fits the state
(60_exceptions.md sections 1 to 3). For any opcode map, and for the machine's own step. -/
def Obligations.StepKeepsInvariant : Prop :=
  (∀ m s t, Inv m s → stepWith m s = .next t → Inv m t) ∧
  (∀ s t, Inv defaultOpcodeMap s → Sys2Proof.Machine.step s = .next t → Inv defaultOpcodeMap t)

/-- Every state reached by a run from any state with the invariant has it, however long the run. -/
def Obligations.RunKeepsInvariant : Prop :=
  ∀ m fuel s t, Inv m s → runWith m fuel s = .next t → Inv m t

/-- Every state has a next state under a step, and under every instruction: no fault and no refusal stops the
model (70_reset_and_hazards.md section 4, termination; log entry 3: a fault of the spec is a next state). -/
def Obligations.EveryStepAnswersNext : Prop :=
  (∀ m s, ∃ t, stepWith m s = .next t) ∧ ∀ i s, ∃ t, exec i s = .next t

/-- When the three bytes at pc decode to an instruction, well-formed or not, the step of a Running engine is that
instruction's `exec` (40_cycle.md section 1); the machine's step is the one with the default map (log entry 1). -/
def Obligations.StepRunsDecodedInstruction : Prop :=
  (∀ m s op a b i, s.status = .running →
    memRead s.pc s = .ok op → memRead (s.pc + 1) s = .ok a → memRead (s.pc + 2) s = .ok b →
    decode m [op, a, b] = .ok i → stepWith m s = exec i s) ∧
  ∀ s, Sys2Proof.Machine.step s = stepWith defaultOpcodeMap s

/-- A Halted or Faulted engine stays exactly as it is, under a step and under a run (40_cycle.md section 1; the
no-op is the spec's decision D8). -/
def Obligations.StoppedEngineStaysAsItIs : Prop :=
  ∀ m s, s.status ≠ .running → stepWith m s = .next s ∧ ∀ fuel, runWith m fuel s = .next s

/-- A fetch whose window leaves memory faults with AddressOutOfRange at the first address outside [0,255], whatever
the bytes are (40_cycle.md section 1; the exact addresses are the spec's decision D2 and conflict C8). -/
def Obligations.FetchPastTheEndFaults : Prop :=
  ∀ m s, s.status = .running → 254 ≤ s.pc →
    (s.pc ≤ 256 → stepWith m s = .next { s with status := .faulted ⟨.addressOutOfRange 256, s.pc⟩ }) ∧
    (256 < s.pc → stepWith m s = .next { s with status := .faulted ⟨.addressOutOfRange s.pc, s.pc⟩ })

/-- Fault entry (60_exceptions.md section 3). Whatever phase raises `f`, the next state is the state before with
status Faulted, the record holding that cause and the pc: a fault of an instruction's own phase through its commit, a
fault of fetch or decode in the step. And whatever step of a Running engine ends Faulted, its next state is the state
before with only the status changed, the record naming the pc. That no write of the faulting instruction survives is
the spec's decision D4, and the record's content its D25, which the model follows (log entry 2). -/
def Obligations.FaultEntryChangesOnlyStatus : Prop :=
  (∀ s f, commit s (.error f) = .next { s with status := .faulted ⟨f, s.pc⟩ }) ∧
  ∀ m s, s.status = .running →
    (∀ f, fetchDecode m s = .error f → stepWith m s = .next { s with status := .faulted ⟨f, s.pc⟩ }) ∧
    ∀ t r, stepWith m s = .next t → t.status = .faulted r → t = { s with status := .faulted r } ∧ r.pc = s.pc

/-- The step of a Running engine ends Halted exactly when the byte at pc is HLT's and the window is in memory, and
it then changes nothing but the status: pc keeps the address of the HLT (41_data_io.md HLT). -/
def Obligations.HaltedOnlyByHlt : Prop :=
  ∀ m s t, m.Valid → s.status = .running → stepWith m s = .next t →
    (t.status = .halted ↔ AtMnemonic m s .hlt) ∧ (t.status = .halted → t = { s with status := .halted })

/-! ### Decoding -/

/-- Decode of encode is the instruction, for every instruction (every operand byte, well-formed or not), under every
map of thirteen distinct bytes, whatever follows it in the fetch window (30_encoding.md sections 1 to 5). -/
def Obligations.DecodeEncodeRoundTrip : Prop :=
  ∀ m, OpcodeMap.Valid m → ∀ (i : Instr) (rest : List Byte),
    3 ≤ (encode m i ++ rest).length → decode m (encode m i ++ rest) = .ok i

/-- Whatever a window decodes to, its encoding is the head of the window: no byte but the unused operand bytes is
dropped (30_encoding.md sections 1 and 5). -/
def Obligations.EncodeOfDecodedIsPrefix : Prop :=
  ∀ m (op a b : Byte) i, decode m [op, a, b] = .ok i → encode m i <+: [op, a, b]

/-- 30_encoding.md R86: a byte equal to a mnemonic's selects that instruction; every other byte raises
InvalidOpcode(pc, op). The premise on pc is that the fetch before the decode did not fault. -/
def Obligations.DecodeMatchesWholeOpcodeByte : Prop :=
  ∀ m, OpcodeMap.Valid m → ∀ s op, s.status = .running → s.pc ≤ 253 → memRead s.pc s = .ok op →
    (∀ k, m k = op → ∃ i, fetchDecode m s = .ok i ∧ i.mnemonic = k) ∧
    ((∀ k, m k ≠ op) → fetchDecode m s = .error (.invalidOpcode op) ∧
      stepWith m s = .next { s with status := .faulted ⟨.invalidOpcode op, s.pc⟩ })

/-- 60_exceptions.md R224: an opcode byte outside the map halts the engine, reports the address and the byte, and the
engine neither advances nor recovers. -/
def Obligations.InvalidOpcodeHaltsTheEngine : Prop :=
  ∀ m s op, s.status = .running → s.pc ≤ 253 → memRead s.pc s = .ok op → (∀ k, m k ≠ op) →
    ∃ t, stepWith m s = .next t ∧ t.status = .faulted ⟨.invalidOpcode op, s.pc⟩ ∧ t.pc = s.pc ∧
      ∀ fuel, runWith m fuel t = .next t

/-- Words written out from the encodings of 30_encoding.md sections 3 and 5 decode to the instructions they stand
for; the bytes that are no opcode are all but the thirteen of section 4, so 0x00 is none. The opcode values are PRESUMED (log entry 1). -/
def Obligations.DefaultMapWordsDecode : Prop :=
  decode defaultOpcodeMap [0b00000001, 0xFF, 0xFF] = .ok .hlt ∧
  decode defaultOpcodeMap [0b10000010, 0b00000111, 0b11111111] = .ok (.ldi 7 255) ∧
  decode defaultOpcodeMap [0b01000111, 0b00000101, 0] = .ok (.prn 5) ∧
  decode defaultOpcodeMap [0b10100000, 0b00000001, 0b00000010] = .ok (.add 1 2) ∧
  decode defaultOpcodeMap [0b01000101, 0b00000011, 0] = .ok (.push 3) ∧
  decode defaultOpcodeMap [0b01010000, 0b00000001, 0] = .ok (.call 1) ∧
  decode defaultOpcodeMap [0, 0, 0] = .error (.invalidOpcode 0) ∧
  ∀ op : Byte, defaultOpcodeMap.lookup op = none ↔
    op ∉ ([0x01, 0x11, 0x45, 0x46, 0x47, 0x50, 0x54, 0x55, 0x56, 0x82, 0xA0, 0xA2, 0xA7] : List Byte)

/-! ### The register file and the memory port -/

/-- 10_state.md R21: get returns the register's value; set stores the value modulo 256 and changes no other register
and no other state. -/
def Obligations.RegisterSetThenGet : Prop :=
  ∀ (s : State) (k : Fin 8) (v : Nat),
    regGet (registerByte k) s = .ok (s.x k) ∧
    ∃ t, regSet (registerByte k) v s = .ok t ∧
      (∃ b, regGet (registerByte k) t = .ok b ∧ b.toNat = v % 256) ∧
      (∀ j, j ≠ k → regGet (registerByte j) t = regGet (registerByte j) s) ∧
      t.pc = s.pc ∧ t.sp = s.sp ∧ t.flags = s.flags ∧ t.status = s.status ∧ SameMemory s t ∧ t.out = s.out

/-- 10_state.md R22: both register operations succeed exactly for a byte in [0,7] and otherwise fail with
RegisterOutOfRange of the whole byte. -/
def Obligations.RegisterIndexIsChecked : Prop :=
  ∀ (i : Byte) (v : Nat) (s : State),
    (i.toNat ≤ 7 → (∃ b, regGet i s = .ok b) ∧ ∃ t, regSet i v s = .ok t) ∧
    (7 < i.toNat → regGet i s = .error (.registerOutOfRange i) ∧ regSet i v s = .error (.registerOutOfRange i))

/-- 20_memory.md R50: a read in [0,255] returns the byte there, any other address raises AddressOutOfRange. -/
def Obligations.MemReadChecksItsAddress : Prop :=
  ∀ (a : Int) (s : State),
    (0 ≤ a → a ≤ 255 → memRead a s = .ok (s.mem.read a.toNat)) ∧
    (a < 0 ∨ 255 < a → memRead a s = .error (.addressOutOfRange a))

/-- A write in [0,255] is read back, changes exactly one cell and no other state, and keeps memory canonical; any
other address writes nothing and raises AddressOutOfRange (20_memory.md section 1). -/
def Obligations.WriteThenReadMemory : Prop :=
  ∀ (a : Int) (v : Byte) (s : State), s.mem.wf = true →
    (0 ≤ a → a ≤ 255 → ∃ t, memWrite a v s = .ok t ∧ memRead a t = .ok v ∧ SameMemoryExcept a s t ∧
      t.mem.wf = true ∧ SameRegisters s t ∧ t.pc = s.pc ∧ t.sp = s.sp ∧ t.flags = s.flags ∧ t.status = s.status ∧
      t.out = s.out) ∧
    (a < 0 ∨ 255 < a → memWrite a v s = .error (.addressOutOfRange a))

/-- Canonical memories in which every address of the address space reads alike are the same data (the form of log
entry 6), so equality of states is equality of what can be read. -/
def Obligations.MemoryIsWhatItReads : Prop :=
  ∀ s t : State, s.mem.wf = true → t.mem.wf = true → SameMemory s t → s.mem = t.mem

/-! ### HLT, LDI, PRN -/

/-- HLT halts and changes nothing else (41_data_io.md HLT). -/
def Obligations.HltResult : Prop :=
  ∀ s, ∃ t, exec .hlt s = .next t ∧ t.status = .halted ∧ t.pc = s.pc ∧
    SameRegisters s t ∧ t.sp = s.sp ∧ t.flags = s.flags ∧ SameMemory s t ∧ t.out = s.out

/-- LDI puts the byte in the register, for every register and every immediate (41_data_io.md LDI). -/
def Obligations.LdiResult : Prop :=
  ∀ s (k : Fin 8) (imm : Byte), ∃ t, exec (.ldi (registerByte k) imm) s = .next t ∧
    t.x k = imm ∧ SameRegistersExcept k s t ∧ t.pc = s.pc + 3 ∧ t.sp = s.sp ∧ t.flags = s.flags ∧
    t.status = s.status ∧ SameMemory s t ∧ t.out = s.out

/-- PRN appends the register's value to the output (41_data_io.md PRN). -/
def Obligations.PrnResult : Prop :=
  ∀ s (k : Fin 8), ∃ t, exec (.prn (registerByte k)) s = .next t ∧
    t.out = s.out ++ [s.x k] ∧ SameRegisters s t ∧ t.pc = s.pc + 2 ∧ t.sp = s.sp ∧ t.flags = s.flags ∧
    t.status = s.status ∧ SameMemory s t

/-- The host's text of the output: each value is one line, the decimal digits without sign or leading zeros, then a
line end (41_data_io.md section on output; decision D13). The spec says only `a line end`: that it is the newline
character, in both clauses, is the model's choice (log entry 11, DESIGN CHOICE). -/
def Obligations.OutputIsOneDecimalPerLine : Prop :=
  (∀ out v, renderOutput (out ++ [v]) = renderOutput out ++ (toString v.toNat ++ "\n")) ∧
  renderOutput [8, 0, 200] = "8\n0\n200\n"

/-! ### ADD, MUL, CMP -/

/-- ADD: the sum modulo 256 in the first register, no flag, no trap; also when both operands are one register
(42_alu.md ADD). -/
def Obligations.AddResult : Prop :=
  ∀ s (i j : Fin 8), ∃ t, exec (.add (registerByte i) (registerByte j)) s = .next t ∧
    (t.x i).toNat = ((s.x i).toNat + (s.x j).toNat) % 256 ∧ SameRegistersExcept i s t ∧ t.pc = s.pc + 3 ∧
    t.sp = s.sp ∧ t.flags = s.flags ∧ t.status = s.status ∧ SameMemory s t ∧ t.out = s.out

/-- MUL: the product modulo 256 in the first register, no flag, no trap (42_alu.md MUL). -/
def Obligations.MulResult : Prop :=
  ∀ s (i j : Fin 8), ∃ t, exec (.mul (registerByte i) (registerByte j)) s = .next t ∧
    (t.x i).toNat = ((s.x i).toNat * (s.x j).toNat) % 256 ∧ SameRegistersExcept i s t ∧ t.pc = s.pc + 3 ∧
    t.sp = s.sp ∧ t.flags = s.flags ∧ t.status = s.status ∧ SameMemory s t ∧ t.out = s.out

/-- CMP: the three flags by the unsigned comparison, everything else but pc unchanged (42_alu.md CMP). -/
def Obligations.CmpResult : Prop :=
  ∀ s (i j : Fin 8), ∃ t, exec (.cmp (registerByte i) (registerByte j)) s = .next t ∧
    (t.flags.e = true ↔ (s.x i).toNat = (s.x j).toNat) ∧ (t.flags.l = true ↔ (s.x i).toNat < (s.x j).toNat) ∧
    (t.flags.g = true ↔ (s.x i).toNat > (s.x j).toNat) ∧ SameRegisters s t ∧ t.pc = s.pc + 3 ∧ t.sp = s.sp ∧
    t.status = s.status ∧ SameMemory s t ∧ t.out = s.out

/-- 42_alu.md R157: the outcome table of CMP for every pair of values. -/
def Obligations.CmpOutcomeTable : Prop :=
  ∀ s (i j : Fin 8) (va vb : Byte), s.x i = va → s.x j = vb →
    ∃ t, exec (.cmp (registerByte i) (registerByte j)) s = .next t ∧
      (va.toNat = vb.toNat → t.flags = ⟨true, false, false⟩) ∧
      (va.toNat < vb.toNat → t.flags = ⟨false, true, false⟩) ∧
      (va.toNat > vb.toNat → t.flags = ⟨false, false, true⟩)

/-- 42_alu.md R150: with ADD, MUL or CMP the ALU depends on nothing but x[regA] and x[regB], and writes nothing but
x[regA] (ADD, MUL) or the flags (CMP). -/
def Obligations.AluTouchesOnlyItsOperands : Prop :=
  ∀ op a b s t, aluExecute op a b s = .ok t →
    ((op = .add ∨ op = .mul) ∧ t.flags = s.flags ∧ (∀ k : Fin 8, k.val ≠ a.toNat → t.x k = s.x k) ∨
      op = .cmp ∧ SameRegisters s t) ∧
    t.mem = s.mem ∧ t.pc = s.pc ∧ t.sp = s.sp ∧ t.status = s.status ∧ t.out = s.out ∧
    ∀ s' : State, (∀ k : Fin 8, k.val = a.toNat ∨ k.val = b.toNat → s'.x k = s.x k) →
      ∃ t', aluExecute op a b s' = .ok t' ∧
        (op = .cmp → t'.flags = t.flags) ∧ ∀ k : Fin 8, k.val = a.toNat → t'.x k = t.x k

/-- Any other selector fails in the ALU and aborts; no program reaches it (60_exceptions.md section 1; the numbering
of the other selectors is the model's, log entry 4). -/
def Obligations.UnsupportedAluOperation : Prop :=
  (∀ n a b s, aluExecute (.other n) a b s = .error (.unsupportedALUOperation (.other n)) ∧
    commit s (aluExecute (.other n) a b s) =
      .next { s with status := .faulted ⟨.unsupportedALUOperation (.other n), s.pc⟩ }) ∧
  ∀ m s t r op, s.status = .running → stepWith m s = .next t → t.status = .faulted r →
    r.cause ≠ .unsupportedALUOperation op

/-- 42_alu.md R156: a step changes the flags only by CMP; ADD and MUL leave them, so a JEQ or JNE after one tests
the E of before, which is 0 at reset. -/
def Obligations.FlagsWrittenOnlyByCmp : Prop :=
  (∀ m s t, stepWith m s = .next t → t.flags ≠ s.flags → AtMnemonic m s .cmp) ∧
  (∀ i s t, (∀ a b, i ≠ .cmp a b) → exec i s = .next t → t.flags = s.flags) ∧
  (∀ a b s t (k : Fin 8), exec (.add a b) s = .next t ∨ exec (.mul a b) s = .next t →
    exec (.jeq (registerByte k)) t = .next { t with pc := if s.flags.e then (t.x k).toNat else t.pc + 2 } ∧
    exec (.jne (registerByte k)) t = .next { t with pc := if s.flags.e then t.pc + 2 else (t.x k).toNat }) ∧
  State.reset.flags.e = false

/-- L and G are read by no instruction: two states that differ only in them step to states that differ at most in
them (10_state.md section 4). -/
def Obligations.NoInstructionReadsLOrG : Prop :=
  ∀ m s t (l g : Bool), stepWith m s = .next t →
    ∃ t', stepWith m { s with flags := ⟨s.flags.e, l, g⟩ } = .next t' ∧
      { t' with flags := ⟨t'.flags.e, false, false⟩ } = { t with flags := ⟨t.flags.e, false, false⟩ }

/-! ### The stack -/

/-- 43_stack.md R171: `push` decrements, then writes at the new sp; at sp = 0 it faults with −1 and sp is not
changed. -/
def Obligations.PushOperation : Prop :=
  ∀ (v : Byte) s, s.mem.wf = true → s.sp ≤ 256 →
    (1 ≤ s.sp → ∃ t, push v s = .ok t ∧ (t.sp : Int) = s.sp - 1 ∧ memRead t.sp t = .ok v ∧
      SameMemoryExcept (pushAddress s) s t ∧ SameRegisters s t ∧ t.pc = s.pc ∧ t.flags = s.flags ∧
      t.status = s.status ∧ t.out = s.out) ∧
    (s.sp = 256 → ∃ t, push v s = .ok t ∧ memRead 255 t = .ok v ∧ t.sp = 255) ∧
    (s.sp = 0 → push v s = .error (.addressOutOfRange (-1)) ∧
      ∃ t, commit s (push v s) = .next t ∧ t.sp = s.sp)

/-- 43_stack.md R172: `pop` reads at sp, then increments; the byte stays in memory; at sp = 256 it faults with
256. -/
def Obligations.PopOperation : Prop :=
  ∀ s, (s.sp ≤ 255 → ∃ v t, pop s = .ok (v, t) ∧ memRead s.sp s = .ok v ∧ t.sp = s.sp + 1 ∧ SameMemory s t ∧
      SameRegisters s t ∧ t.pc = s.pc ∧ t.flags = s.flags ∧ t.status = s.status ∧ t.out = s.out) ∧
    (s.sp = 255 → ∃ v t, pop s = .ok (v, t) ∧ memRead 255 s = .ok v ∧ t.sp = 256) ∧
    (s.sp = 256 → pop s = .error (.addressOutOfRange 256))

/-- PUSH, R7 included: the register's value goes to the address sp − 1, which becomes sp (43_stack.md PUSH). -/
def Obligations.PushResult : Prop :=
  ∀ s (k : Fin 8), s.mem.wf = true → 1 ≤ s.sp → s.sp ≤ 256 →
    ∃ t, exec (.push (registerByte k)) s = .next t ∧
      (t.sp : Int) = pushAddress s ∧ memRead (pushAddress s) t = .ok (s.x k) ∧ SameMemoryExcept (pushAddress s) s t ∧
      t.pc = s.pc + 2 ∧ SameRegisters s t ∧ t.flags = s.flags ∧ t.status = s.status ∧ t.out = s.out

/-- POP: the byte at sp goes to the register, sp goes up by 1, memory is not written; popping at or above the
initial sp is no fault up to 255 (43_stack.md POP; the last point is the spec's decision D9). -/
def Obligations.PopResult : Prop :=
  ∀ s (k : Fin 8), s.sp ≤ 255 →
    ∃ t, exec (.pop (registerByte k)) s = .next t ∧
      memRead s.sp s = .ok (t.x k) ∧ SameRegistersExcept k s t ∧ t.sp = s.sp + 1 ∧ t.pc = s.pc + 2 ∧
      t.flags = s.flags ∧ t.status = s.status ∧ SameMemory s t ∧ t.out = s.out

/-- PUSH then POP, into any register, gives the pushed value and restores sp (43_stack.md section 1, the source's
round-trip property). -/
def Obligations.PushThenPopRoundTrip : Prop :=
  ∀ s (i j : Fin 8), s.mem.wf = true → 1 ≤ s.sp → s.sp ≤ 256 →
    ∃ t u, exec (.push (registerByte i)) s = .next t ∧ exec (.pop (registerByte j)) t = .next u ∧
      u.x j = s.x i ∧ SameRegistersExcept j s u ∧ u.sp = s.sp ∧ SameMemoryExcept (pushAddress s) s u

/-- The stack faults of the four stack instructions: −1 for PUSH and CALL at sp = 0, 256 for POP and RET at
sp = 256; everything but the status is as before (60_exceptions.md section 1; edges by decisions D2 and D4). -/
def Obligations.StackAccessFaults : Prop :=
  ∀ s (k : Fin 8),
    (s.sp = 0 →
      exec (.push (registerByte k)) s = .next { s with status := .faulted ⟨.addressOutOfRange (-1), s.pc⟩ } ∧
      exec (.call (registerByte k)) s = .next { s with status := .faulted ⟨.addressOutOfRange (-1), s.pc⟩ }) ∧
    (s.sp = 256 →
      exec (.pop (registerByte k)) s = .next { s with status := .faulted ⟨.addressOutOfRange 256, s.pc⟩ } ∧
      exec .ret s = .next { s with status := .faulted ⟨.addressOutOfRange 256, s.pc⟩ })

/-- R7 is an ordinary register: the stack instructions that do not name it neither read nor write it
(10_state.md section 1; decision D16). -/
def Obligations.RegisterSevenIsNotTheStackPointer : Prop :=
  ∀ i s t (v : Byte),
    (i = .ret ∨ ∃ k : Fin 8, k ≠ 7 ∧
      (i = .push (registerByte k) ∨ i = .pop (registerByte k) ∨ i = .call (registerByte k))) →
    exec i s = .next t → t.x 7 = s.x 7 ∧ exec i (s.setX 7 v) = .next (t.setX 7 v)

/-- A byte written by PUSH or CALL is fetched as written by the next fetch of its address, wherever that is; every
other byte is fetched as before (20_memory.md section 5, self-modifying code; decision D26). -/
def Obligations.FetchSeesStackWrites : Prop :=
  ∀ s i t (v : Byte) (k : Fin 8) (p : Nat), s.mem.wf = true → 1 ≤ s.sp → s.sp ≤ 256 → s.pc ≤ 253 → p ≤ 253 →
    (i = .push (registerByte k) ∧ v = s.x k ∨ i = .call (registerByte k) ∧ v.toNat = s.pc + 2) →
    exec i s = .next t →
    ∃ w, fetch { t with pc := p } = .ok w ∧
      (w.op = if (p : Int) = pushAddress s then v else s.mem.read p) ∧
      (w.a = if (p : Int) + 1 = pushAddress s then v else s.mem.read (p + 1)) ∧
      (w.b = if (p : Int) + 2 = pushAddress s then v else s.mem.read (p + 2))

/-! ### Control transfer -/

/-- CALL pushes pc + 2 and jumps to the register's value; it writes no register (44_control.md CALL). The premise on
pc holds after every fetch. -/
def Obligations.CallResult : Prop :=
  ∀ s (k : Fin 8), s.mem.wf = true → 1 ≤ s.sp → s.sp ≤ 256 → s.pc ≤ 253 →
    ∃ t, exec (.call (registerByte k)) s = .next t ∧
      t.pc = (s.x k).toNat ∧ (t.sp : Int) = pushAddress s ∧
      (∃ v, memRead (pushAddress s) t = .ok v ∧ v.toNat = s.pc + 2) ∧ SameMemoryExcept (pushAddress s) s t ∧
      SameRegisters s t ∧ t.flags = s.flags ∧ t.status = s.status ∧ t.out = s.out

/-- RET sets pc to the popped byte, whoever pushed it (44_control.md RET). -/
def Obligations.RetResult : Prop :=
  ∀ s, s.sp ≤ 255 →
    ∃ t, exec .ret s = .next t ∧
      (∃ v, memRead s.sp s = .ok v ∧ t.pc = v.toNat) ∧ t.sp = s.sp + 1 ∧
      SameRegisters s t ∧ t.flags = s.flags ∧ t.status = s.status ∧ SameMemory s t ∧ t.out = s.out

/-- JMP sets pc to the register's value (44_control.md JMP). -/
def Obligations.JmpResult : Prop :=
  ∀ s (k : Fin 8), ∃ t, exec (.jmp (registerByte k)) s = .next t ∧ t.pc = (s.x k).toNat ∧
    SameRegisters s t ∧ t.sp = s.sp ∧ t.flags = s.flags ∧ t.status = s.status ∧ SameMemory s t ∧ t.out = s.out

/-- JEQ: taken exactly when E is set; not taken it advances by 2 with ANY operand byte, which is then not read
(44_control.md JEQ; the last point is the spec's decision D6). -/
def Obligations.JeqResult : Prop :=
  ∀ s,
    (s.flags.e = true → ∀ k : Fin 8, ∃ t, exec (.jeq (registerByte k)) s = .next t ∧ t.pc = (s.x k).toNat ∧
      SameRegisters s t ∧ t.sp = s.sp ∧ t.flags = s.flags ∧ t.status = s.status ∧ SameMemory s t ∧ t.out = s.out) ∧
    (s.flags.e = false → ∀ n : Byte, ∃ t, exec (.jeq n) s = .next t ∧ t.pc = s.pc + 2 ∧
      SameRegisters s t ∧ t.sp = s.sp ∧ t.flags = s.flags ∧ t.status = s.status ∧ SameMemory s t ∧ t.out = s.out)

/-- JNE: taken exactly when E is clear; not taken it advances by 2 with ANY operand byte, which is then not read
(44_control.md JNE; the last point is the spec's decision D6). -/
def Obligations.JneResult : Prop :=
  ∀ s,
    (s.flags.e = false → ∀ k : Fin 8, ∃ t, exec (.jne (registerByte k)) s = .next t ∧ t.pc = (s.x k).toNat ∧
      SameRegisters s t ∧ t.sp = s.sp ∧ t.flags = s.flags ∧ t.status = s.status ∧ SameMemory s t ∧ t.out = s.out) ∧
    (s.flags.e = true → ∀ n : Byte, ∃ t, exec (.jne n) s = .next t ∧ t.pc = s.pc + 2 ∧
      SameRegisters s t ∧ t.sp = s.sp ∧ t.flags = s.flags ∧ t.status = s.status ∧ SameMemory s t ∧ t.out = s.out)

/-- CALL, then in ANY state whose sp and the byte it points at are as the CALL left them, RET: control is at the
address after CALL's operand byte and sp is as before the CALL (44_control.md section 3). -/
def Obligations.CallThenRetReturns : Prop :=
  ∀ s (k : Fin 8) t u, s.mem.wf = true → 1 ≤ s.sp → s.sp ≤ 256 → s.pc ≤ 253 →
    exec (.call (registerByte k)) s = .next t → u.sp = t.sp → memRead u.sp u = memRead t.sp t →
    ∃ v, exec .ret u = .next v ∧ v.pc = s.pc + 2 ∧ v.sp = s.sp

/-- 40_cycle.md R116: the pc after an instruction that does not fault. -/
def Obligations.PcUpdate : Prop :=
  ∀ i s t, s.status = .running → exec i s = .next t → (∀ r, t.status ≠ .faulted r) →
    match i with
    | .ldi _ _ | .add _ _ | .mul _ _ | .cmp _ _ => t.pc = s.pc + 3
    | .prn _ | .push _ | .pop _ => t.pc = s.pc + 2
    | .hlt => t.pc = s.pc
    | .call n | .jmp n => regGet n s = .ok (BitVec.ofNat 8 t.pc) ∧ t.pc ≤ 255
    | .ret => memRead s.sp s = .ok (BitVec.ofNat 8 t.pc) ∧ t.pc ≤ 255
    | .jeq n => if s.flags.e then regGet n s = .ok (BitVec.ofNat 8 t.pc) ∧ t.pc ≤ 255 else t.pc = s.pc + 2
    | .jne n => if s.flags.e then t.pc = s.pc + 2 else regGet n s = .ok (BitVec.ofNat 8 t.pc) ∧ t.pc ≤ 255

/-! ### Faults of operands -/

/-- 60_exceptions.md R222: an instruction raises RegisterOutOfRange exactly when an operand byte it uses as a
register index is greater than 7; bytes it does not use, and the operand of a jump not taken, never raise it. -/
def Obligations.RegisterOutOfRangeExactlyForUsedOperands : Prop :=
  ∀ i s, s.status = .running →
    ((∃ v ∈ usedRegisterOperands i s.flags.e, 7 < v.toNat) ↔
      ∃ v t, exec i s = .next t ∧ t.status = .faulted ⟨.registerOutOfRange v, s.pc⟩) ∧
    ∀ v t p, exec i s = .next t → t.status = .faulted ⟨.registerOutOfRange v, p⟩ →
      v ∈ usedRegisterOperands i s.flags.e ∧ 7 < v.toNat

/-- The first used operand byte above 7, operand A before operand B, is the one reported, before any stack access
and whatever sp is (60_exceptions.md section 2, the spec's decision D5); nothing but the status changes
(decision D4). -/
def Obligations.FirstBadOperandIsReported : Prop :=
  ∀ i s v, (usedRegisterOperands i s.flags.e).find? (fun u => decide (7 < u.toNat)) = some v →
    exec i s = .next { s with status := .faulted ⟨.registerOutOfRange v, s.pc⟩ }

/-! ### What only some instructions change -/

/-- Only PUSH, POP, CALL and RET change sp, and by one (10_state.md section 3). -/
def Obligations.StackPointerChangedOnlyByStackInstructions : Prop :=
  ∀ m s t, stepWith m s = .next t → t.sp ≠ s.sp →
    ((AtMnemonic m s .push ∨ AtMnemonic m s .call) ∧ (t.sp : Int) = s.sp - 1) ∨
    ((AtMnemonic m s .pop ∨ AtMnemonic m s .ret) ∧ t.sp = s.sp + 1)

/-- Only PUSH and CALL write memory, and only the cell at sp − 1 (20_memory.md section 2; conflict C5). -/
def Obligations.MemoryWrittenOnlyByPushAndCall : Prop :=
  ∀ m s t (a : Int), stepWith m s = .next t → memRead a t ≠ memRead a s →
    (AtMnemonic m s .push ∨ AtMnemonic m s .call) ∧ a = pushAddress s

/-- The output only grows, by one value at a time and only by PRN (10_state.md section 7). -/
def Obligations.OutputOnlyGrowsByPrn : Prop :=
  ∀ m s t, stepWith m s = .next t →
    t.out = s.out ∨ (AtMnemonic m s .prn ∧ ∃ k : Fin 8, t.out = s.out ++ [s.x k])

/-- Only LDI, ADD, MUL and POP write a general register, and only the one their operand A names (10_state.md
section 1, the table). -/
def Obligations.RegistersWrittenOnlyAsTabled : Prop :=
  ∀ i s t (k : Fin 8), exec i s = .next t → t.x k ≠ s.x k →
    (∃ imm, i = .ldi (registerByte k) imm) ∨ (∃ b, i = .add (registerByte k) b) ∨
    (∃ b, i = .mul (registerByte k) b) ∨ i = .pop (registerByte k)

/-! ### Loading and running -/

/-- 70_reset_and_hazards.md R263: loading puts p_i at address i and changes nothing else; the cells from n on keep
their reset value 0. -/
def Obligations.LoadBytesPlacesImage : Prop :=
  ∀ p : List Byte, p.length ≤ 256 →
    ∃ t, loadBytes (p.map fun v => (v.toNat : Int)) State.reset = .ok t ∧
      (∀ i (h : i < p.length), memRead (i : Int) t = .ok p[i]) ∧
      (∀ i : Nat, p.length ≤ i → i ≤ 255 → memRead (i : Int) t = .ok 0) ∧
      t = { State.reset with mem := t.mem }

/-- A load that is too long, holds a value outside [0,255] or meets an engine that is not in the reset state is
refused as a whole (70_reset_and_hazards.md section 2; decision D14, log entry 10). -/
def Obligations.LoadIsAllOrNothing : Prop :=
  ∀ (p : List Int) (s : State),
    (∃ t, loadBytes p s = .ok t) ↔ s = State.reset ∧ p.length ≤ 256 ∧ ∀ v ∈ p, 0 ≤ v ∧ v ≤ 255

/-- The launch state is what loading gives: Running at pc 0 with sp 0xF3, no flag, zero registers and no output
(70_reset_and_hazards.md section 2), and it has the invariant. -/
def Obligations.LaunchState : Prop :=
  ∀ (m : OpcodeMap) (p : List Byte), p.length ≤ 256 →
    loadBytes (p.map fun v => (v.toNat : Int)) State.reset = .ok (launch p) ∧
    (launch p).status = .running ∧ (launch p).pc = 0 ∧ (launch p).sp = 0xF3 ∧ (launch p).out = [] ∧
    (launch p).flags = ⟨false, false, false⟩ ∧ (∀ k, (launch p).x k = 0) ∧ Inv m (launch p)

/-- `run()` is the repeated `step()` (40_cycle.md section 2), as the host's own run of the core repeats it. -/
def Obligations.RunIsRepeatedStep : Prop :=
  ∀ fuel (s : State), run fuel s = Sys2Proof.core.run fuel s

/-- However many steps a run is given, it ends in at most one state, and every larger budget ends there too
(40_cycle.md section 2). -/
def Obligations.RunEndsInOneState : Prop :=
  ∀ m s t, Ends m s t →
    (∀ u, Ends m s u → u = t) ∧ ∃ n, ∀ fuel, n ≤ fuel → runWith m fuel s = .next t
end

