-- ==== Sys2Proof/Laws/Decode.lean ====
section
/-! SUPPORT. What the lookup of an opcode byte and the decoding of a window can answer. -/

namespace Sys2Proof

theorem Mnemonic.mem_all (k : Mnemonic) : k ∈ Mnemonic.all := by
  cases k <;> decide

@[simp] theorem Mnemonic.toInstr_mnemonic (k : Mnemonic) (a b : Byte) : (k.toInstr a b).mnemonic = k := by
  cases k <;> rfl

/-- A mnemonic found for a byte has exactly that byte (30_encoding.md R86). -/
theorem OpcodeMap.byte_of_lookup {m : OpcodeMap} {op : Byte} {k : Mnemonic} (h : m.lookup op = some k) : m k = op := by
  simpa using List.find?_some h

/-- No mnemonic is found exactly for a byte outside the map. -/
theorem OpcodeMap.lookup_eq_none {m : OpcodeMap} {op : Byte} : m.lookup op = none ↔ ∀ k, m k ≠ op := by
  simp only [OpcodeMap.lookup, List.find?_eq_none, beq_iff_eq]
  exact ⟨fun h k => h k (Mnemonic.mem_all k), fun h k _ => h k⟩

/-- The bytes of a valid map tell the mnemonics apart (30_encoding.md R84). -/
theorem OpcodeMap.Valid.injective {m : OpcodeMap} (hm : m.Valid) : Function.Injective m := by
  intro j k h
  exact List.inj_on_of_nodup_map hm (Mnemonic.mem_all j) (Mnemonic.mem_all k) h

theorem defaultOpcodeMap_valid : defaultOpcodeMap.Valid := by decide

/-- What decoding a window answers. -/
theorem decodeWindow_eq_ok {m : OpcodeMap} {w : Window} {i : Instr} :
    decodeWindow m w = .ok i ↔ ∃ k, m.lookup w.op = some k ∧ i = k.toInstr w.a w.b := by
  unfold decodeWindow
  split
  · next k hk => simp [hk, eq_comm]
  · next hk => simp [hk]

theorem decodeWindow_eq_error {m : OpcodeMap} {w : Window} {e : DecodeError} :
    decodeWindow m w = .error e ↔ m.lookup w.op = none ∧ e = .invalidOpcode w.op := by
  unfold decodeWindow
  split
  · next k hk => simp [hk]
  · next hk => simp [hk, eq_comm]

end Sys2Proof
end

