-- ==== Sys2Proof/Laws/State.lean ====
section
/-! SUPPORT. One lemma per field and update of State, true by rfl. -/

namespace Sys2Proof.Machine

@[simp] theorem State.setPc_regs (s : State) (v : Nat) : (s.setPc v).regs = s.regs := rfl
@[simp] theorem State.setPc_pc (s : State) (v : Nat) : (s.setPc v).pc = v := rfl
@[simp] theorem State.setPc_sp (s : State) (v : Nat) : (s.setPc v).sp = s.sp := rfl
@[simp] theorem State.setPc_flags (s : State) (v : Nat) : (s.setPc v).flags = s.flags := rfl
@[simp] theorem State.setPc_status (s : State) (v : Nat) : (s.setPc v).status = s.status := rfl
@[simp] theorem State.setPc_mem (s : State) (v : Nat) : (s.setPc v).mem = s.mem := rfl
@[simp] theorem State.setPc_out (s : State) (v : Nat) : (s.setPc v).out = s.out := rfl

@[simp] theorem State.setSp_regs (s : State) (v : Nat) : (s.setSp v).regs = s.regs := rfl
@[simp] theorem State.setSp_pc (s : State) (v : Nat) : (s.setSp v).pc = s.pc := rfl
@[simp] theorem State.setSp_sp (s : State) (v : Nat) : (s.setSp v).sp = v := rfl
@[simp] theorem State.setSp_flags (s : State) (v : Nat) : (s.setSp v).flags = s.flags := rfl
@[simp] theorem State.setSp_status (s : State) (v : Nat) : (s.setSp v).status = s.status := rfl
@[simp] theorem State.setSp_mem (s : State) (v : Nat) : (s.setSp v).mem = s.mem := rfl
@[simp] theorem State.setSp_out (s : State) (v : Nat) : (s.setSp v).out = s.out := rfl

@[simp] theorem State.setFlags_regs (s : State) (v : Flags) : (s.setFlags v).regs = s.regs := rfl
@[simp] theorem State.setFlags_pc (s : State) (v : Flags) : (s.setFlags v).pc = s.pc := rfl
@[simp] theorem State.setFlags_sp (s : State) (v : Flags) : (s.setFlags v).sp = s.sp := rfl
@[simp] theorem State.setFlags_flags (s : State) (v : Flags) : (s.setFlags v).flags = v := rfl
@[simp] theorem State.setFlags_status (s : State) (v : Flags) : (s.setFlags v).status = s.status := rfl
@[simp] theorem State.setFlags_mem (s : State) (v : Flags) : (s.setFlags v).mem = s.mem := rfl
@[simp] theorem State.setFlags_out (s : State) (v : Flags) : (s.setFlags v).out = s.out := rfl

@[simp] theorem State.setStatus_regs (s : State) (v : Status) : (s.setStatus v).regs = s.regs := rfl
@[simp] theorem State.setStatus_pc (s : State) (v : Status) : (s.setStatus v).pc = s.pc := rfl
@[simp] theorem State.setStatus_sp (s : State) (v : Status) : (s.setStatus v).sp = s.sp := rfl
@[simp] theorem State.setStatus_flags (s : State) (v : Status) : (s.setStatus v).flags = s.flags := rfl
@[simp] theorem State.setStatus_status (s : State) (v : Status) : (s.setStatus v).status = v := rfl
@[simp] theorem State.setStatus_mem (s : State) (v : Status) : (s.setStatus v).mem = s.mem := rfl
@[simp] theorem State.setStatus_out (s : State) (v : Status) : (s.setStatus v).out = s.out := rfl

@[simp] theorem State.setMem_regs (s : State) (v : Memory) : (s.setMem v).regs = s.regs := rfl
@[simp] theorem State.setMem_pc (s : State) (v : Memory) : (s.setMem v).pc = s.pc := rfl
@[simp] theorem State.setMem_sp (s : State) (v : Memory) : (s.setMem v).sp = s.sp := rfl
@[simp] theorem State.setMem_flags (s : State) (v : Memory) : (s.setMem v).flags = s.flags := rfl
@[simp] theorem State.setMem_status (s : State) (v : Memory) : (s.setMem v).status = s.status := rfl
@[simp] theorem State.setMem_mem (s : State) (v : Memory) : (s.setMem v).mem = v := rfl
@[simp] theorem State.setMem_out (s : State) (v : Memory) : (s.setMem v).out = s.out := rfl

@[simp] theorem State.setX_regs (s : State) (k : Fin 8) (v : Byte) : (s.setX k v).regs = s.regs.set k v := rfl
@[simp] theorem State.setX_pc (s : State) (k : Fin 8) (v : Byte) : (s.setX k v).pc = s.pc := rfl
@[simp] theorem State.setX_sp (s : State) (k : Fin 8) (v : Byte) : (s.setX k v).sp = s.sp := rfl
@[simp] theorem State.setX_flags (s : State) (k : Fin 8) (v : Byte) : (s.setX k v).flags = s.flags := rfl
@[simp] theorem State.setX_status (s : State) (k : Fin 8) (v : Byte) : (s.setX k v).status = s.status := rfl
@[simp] theorem State.setX_mem (s : State) (k : Fin 8) (v : Byte) : (s.setX k v).mem = s.mem := rfl
@[simp] theorem State.setX_out (s : State) (k : Fin 8) (v : Byte) : (s.setX k v).out = s.out := rfl

@[simp] theorem State.emit_regs (s : State) (v : Byte) : (s.emit v).regs = s.regs := rfl
@[simp] theorem State.emit_pc (s : State) (v : Byte) : (s.emit v).pc = s.pc := rfl
@[simp] theorem State.emit_sp (s : State) (v : Byte) : (s.emit v).sp = s.sp := rfl
@[simp] theorem State.emit_flags (s : State) (v : Byte) : (s.emit v).flags = s.flags := rfl
@[simp] theorem State.emit_status (s : State) (v : Byte) : (s.emit v).status = s.status := rfl
@[simp] theorem State.emit_mem (s : State) (v : Byte) : (s.emit v).mem = s.mem := rfl
@[simp] theorem State.emit_out (s : State) (v : Byte) : (s.emit v).out = s.out ++ [v] := rfl

@[simp] theorem State.advance_regs (s : State) (n : Nat) : (s.advance n).regs = s.regs := rfl
@[simp] theorem State.advance_pc (s : State) (n : Nat) : (s.advance n).pc = s.pc + n := rfl
@[simp] theorem State.advance_sp (s : State) (n : Nat) : (s.advance n).sp = s.sp := rfl
@[simp] theorem State.advance_flags (s : State) (n : Nat) : (s.advance n).flags = s.flags := rfl
@[simp] theorem State.advance_status (s : State) (n : Nat) : (s.advance n).status = s.status := rfl
@[simp] theorem State.advance_mem (s : State) (n : Nat) : (s.advance n).mem = s.mem := rfl
@[simp] theorem State.advance_out (s : State) (n : Nat) : (s.advance n).out = s.out := rfl

@[simp] theorem takeFault_regs (f : Fault) (s : State) : (takeFault f s).regs = s.regs := rfl
@[simp] theorem takeFault_pc (f : Fault) (s : State) : (takeFault f s).pc = s.pc := rfl
@[simp] theorem takeFault_sp (f : Fault) (s : State) : (takeFault f s).sp = s.sp := rfl
@[simp] theorem takeFault_flags (f : Fault) (s : State) : (takeFault f s).flags = s.flags := rfl
@[simp] theorem takeFault_status (f : Fault) (s : State) : (takeFault f s).status = .faulted ⟨f, s.pc⟩ := rfl
@[simp] theorem takeFault_mem (f : Fault) (s : State) : (takeFault f s).mem = s.mem := rfl
@[simp] theorem takeFault_out (f : Fault) (s : State) : (takeFault f s).out = s.out := rfl

theorem State.x_eq_of_regs_eq {s t : State} (h : t.regs = s.regs) (k : Fin 8) : t.x k = s.x k := by
  simp [State.x, h]

/-- Reading a general register after storing in one (10_state.md R21). -/
theorem State.x_setX (s : State) (i k : Fin 8) (v : Byte) : (s.setX i v).x k = if i = k then v else s.x k := by
  simp only [State.x, State.setX_regs, Fin.getElem_fin, Vector.getElem_set, Fin.ext_iff]

@[simp] theorem State.x_setX_self (s : State) (k : Fin 8) (v : Byte) : (s.setX k v).x k = v := by
  simp [State.x_setX]

theorem State.x_setX_ne (s : State) {i k : Fin 8} (v : Byte) (h : i ≠ k) : (s.setX i v).x k = s.x k := by
  simp [State.x_setX, h]

@[simp] theorem State.x_setPc (s : State) (v : Nat) (k : Fin 8) : (s.setPc v).x k = s.x k := rfl
@[simp] theorem State.x_setSp (s : State) (v : Nat) (k : Fin 8) : (s.setSp v).x k = s.x k := rfl
@[simp] theorem State.x_setFlags (s : State) (v : Flags) (k : Fin 8) : (s.setFlags v).x k = s.x k := rfl
@[simp] theorem State.x_setStatus (s : State) (v : Status) (k : Fin 8) : (s.setStatus v).x k = s.x k := rfl
@[simp] theorem State.x_setMem (s : State) (v : Memory) (k : Fin 8) : (s.setMem v).x k = s.x k := rfl
@[simp] theorem State.x_emit (s : State) (v : Byte) (k : Fin 8) : (s.emit v).x k = s.x k := rfl
@[simp] theorem State.x_advance (s : State) (v : Nat) (k : Fin 8) : (s.advance v).x k = s.x k := rfl
@[simp] theorem x_takeFault (f : Fault) (s : State) (k : Fin 8) : (takeFault f s).x k = s.x k := rfl

/-- Two states that agree on every piece of state are equal. -/
theorem State.ext_fields {s t : State} (hr : ∀ k, s.x k = t.x k) (hp : s.pc = t.pc) (hs : s.sp = t.sp)
    (hf : s.flags = t.flags) (hst : s.status = t.status) (hm : s.mem = t.mem) (ho : s.out = t.out) : s = t := by
  obtain ⟨r, p, q, f, st, m, o⟩ := s
  obtain ⟨r', p', q', f', st', m', o'⟩ := t
  have hr' : r = r' := by
    ext i hi
    exact congrArg (fun b : Byte => b.getLsbD _) (hr ⟨i, hi⟩)
  simp_all

theorem State.isRunning_iff (s : State) : s.isRunning = true ↔ s.status = .running := by
  simp [State.isRunning]

end Sys2Proof.Machine
end

