-- ==== Sys2Proof/Laws/Ops.lean ====
section
/-! SUPPORT. For each shared operation, everything it can answer: an equivalence for success and one for the fault
it raises. -/

namespace Sys2Proof.Machine

/-! ### Sequencing of phases -/

@[simp] theorem Except.ok_bind {α β : Type} (a : α) (f : α → Except Fault β) : ((Except.ok a : Except Fault α) >>= f) = f a := rfl

@[simp] theorem Except.error_bind {α β : Type} (e : Fault) (f : α → Except Fault β) :
    ((Except.error e : Except Fault α) >>= f) = .error e := rfl

theorem Except.bind_eq_ok {α β : Type} {x : Except Fault α} {f : α → Except Fault β} {b : β} :
    (x >>= f) = .ok b ↔ ∃ a, x = .ok a ∧ f a = .ok b := by
  cases x <;> simp

theorem Except.bind_eq_error {α β : Type} {x : Except Fault α} {f : α → Except Fault β} {e : Fault} :
    (x >>= f) = .error e ↔ x = .error e ∨ ∃ a, x = .ok a ∧ f a = .error e := by
  cases x <;> simp

@[simp] theorem Except.pure_eq_ok {α : Type} (a : α) : (pure a : Except Fault α) = .ok a := rfl

/-! ### Register operands -/

theorem regIndex_eq_ok {v : Byte} {k : Fin 8} : regIndex v = .ok k ↔ v.toNat = k.val := by
  unfold regIndex
  split
  · simp [Fin.ext_iff]
  · next h => simp; omega

theorem regIndex_eq_error {v : Byte} {f : Fault} : regIndex v = .error f ↔ 7 < v.toNat ∧ f = .registerOutOfRange v := by
  unfold regIndex
  split
  · next h => simp; omega
  · next h => simp [eq_comm]; omega

@[simp] theorem registerByte_toNat (k : Fin 8) : (registerByte k).toNat = k.val := by
  simp [registerByte]; omega

@[simp] theorem regIndex_registerByte (k : Fin 8) : regIndex (registerByte k) = .ok k :=
  regIndex_eq_ok.2 (registerByte_toNat k)

theorem regGet_eq_ok {i : Byte} {s : State} {v : Byte} : regGet i s = .ok v ↔ ∃ k : Fin 8, i.toNat = k.val ∧ s.x k = v := by
  simp [regGet, Except.bind_eq_ok, regIndex_eq_ok]

theorem regGet_eq_error {i : Byte} {s : State} {f : Fault} :
    regGet i s = .error f ↔ 7 < i.toNat ∧ f = .registerOutOfRange i := by
  simp [regGet, Except.bind_eq_error, regIndex_eq_error]

@[simp] theorem regGet_registerByte (k : Fin 8) (s : State) : regGet (registerByte k) s = .ok (s.x k) := by
  simp [regGet]

theorem regSet_eq_ok {i : Byte} {v : Nat} {s t : State} :
    regSet i v s = .ok t ↔ ∃ k : Fin 8, i.toNat = k.val ∧ s.setX k (BitVec.ofNat 8 v) = t := by
  simp [regSet, Except.bind_eq_ok, regIndex_eq_ok]

theorem regSet_eq_error {i : Byte} {v : Nat} {s : State} {f : Fault} :
    regSet i v s = .error f ↔ 7 < i.toNat ∧ f = .registerOutOfRange i := by
  simp [regSet, Except.bind_eq_error, regIndex_eq_error]

@[simp] theorem regSet_registerByte (k : Fin 8) (v : Nat) (s : State) :
    regSet (registerByte k) v s = .ok (s.setX k (BitVec.ofNat 8 v)) := by
  simp [regSet]

/-! ### Memory port -/

theorem memRead_eq_ok {a : Int} {s : State} {v : Byte} :
    memRead a s = .ok v ↔ 0 ≤ a ∧ a ≤ 255 ∧ s.mem.read a.toNat = v := by
  unfold memRead
  split
  · next h => simp [h]
  · next h => simp; omega

theorem memRead_eq_error {a : Int} {s : State} {f : Fault} :
    memRead a s = .error f ↔ (a < 0 ∨ 255 < a) ∧ f = .addressOutOfRange a := by
  unfold memRead
  split
  · next h => simp; omega
  · next h =>
    have h' : a < 0 ∨ 255 < a := by omega
    simp [h', eq_comm]

/-- Reading at a natural-number address of the address space. -/
theorem memRead_natCast {a : Nat} (h : a ≤ 255) (s : State) : memRead (a : Int) s = .ok (s.mem.read a) :=
  memRead_eq_ok.2 ⟨by omega, by omega, by simp⟩

theorem memWrite_eq_ok {a : Int} {v : Byte} {s t : State} :
    memWrite a v s = .ok t ↔ 0 ≤ a ∧ a ≤ 255 ∧ s.setMem (s.mem.write a.toNat v) = t := by
  unfold memWrite
  split
  · next h => simp [h]
  · next h => simp; omega

theorem memWrite_eq_error {a : Int} {v : Byte} {s : State} {f : Fault} :
    memWrite a v s = .error f ↔ (a < 0 ∨ 255 < a) ∧ f = .addressOutOfRange a := by
  unfold memWrite
  split
  · next h => simp; omega
  · next h =>
    have h' : a < 0 ∨ 255 < a := by omega
    simp [h', eq_comm]

/-! ### Stack controller -/

theorem push_eq_ok {v : Byte} {s t : State} :
    push v s = .ok t ↔ 1 ≤ s.sp ∧ s.sp ≤ 256 ∧ (s.setMem (s.mem.write (s.sp - 1) v)).setSp (s.sp - 1) = t := by
  simp only [push, Except.bind_eq_ok, memWrite_eq_ok, Except.pure_eq_ok, Except.ok.injEq, pushAddress]
  constructor
  · rintro ⟨t', ⟨h0, h1, rfl⟩, rfl⟩
    refine ⟨by omega, by omega, ?_⟩
    rw [show ((s.sp : Int) - 1).toNat = s.sp - 1 from by omega]
  · rintro ⟨h0, h1, rfl⟩
    refine ⟨_, ⟨by omega, by omega, rfl⟩, ?_⟩
    rw [show ((s.sp : Int) - 1).toNat = s.sp - 1 from by omega]

theorem push_eq_error {v : Byte} {s : State} {f : Fault} :
    push v s = .error f ↔ (s.sp = 0 ∨ 256 < s.sp) ∧ f = .addressOutOfRange (pushAddress s) := by
  simp only [push, Except.bind_eq_error, memWrite_eq_error, Except.pure_eq_ok, reduceCtorEq, and_false, exists_false,
    or_false, pushAddress]
  refine and_congr_left fun _ => ?_
  omega

theorem pop_eq_ok {s : State} {r : Byte × State} :
    pop s = .ok r ↔ s.sp ≤ 255 ∧ (s.mem.read s.sp, s.setSp (s.sp + 1)) = r := by
  simp only [pop, Except.bind_eq_ok, memRead_eq_ok, Except.pure_eq_ok, Except.ok.injEq, Int.toNat_natCast]
  constructor
  · rintro ⟨v, ⟨_, h, rfl⟩, rfl⟩
    exact ⟨by omega, rfl⟩
  · rintro ⟨h, rfl⟩
    exact ⟨_, ⟨by omega, by omega, rfl⟩, rfl⟩

theorem pop_eq_error {s : State} {f : Fault} :
    pop s = .error f ↔ 255 < s.sp ∧ f = .addressOutOfRange s.sp := by
  simp only [pop, Except.bind_eq_error, memRead_eq_error, Except.pure_eq_ok, reduceCtorEq, and_false, exists_false,
    or_false]
  refine and_congr_left fun _ => ?_
  omega

/-! ### ALU -/

/-- What the ALU writes when it succeeds: ADD and MUL one register, CMP the flags. -/
theorem aluExecute_eq_ok {op : AluOp} {a b : Byte} {s t : State} : aluExecute op a b s = .ok t ↔
    ∃ i j : Fin 8, a.toNat = i.val ∧ b.toNat = j.val ∧
      ((op = .add ∧ t = s.setX i (BitVec.ofNat 8 ((s.x i).toNat + (s.x j).toNat))) ∨
       (op = .mul ∧ t = s.setX i (BitVec.ofNat 8 ((s.x i).toNat * (s.x j).toNat))) ∨
       (op = .cmp ∧ t = s.setFlags (compareFlags (s.x i) (s.x j)))) := by
  cases op with
  | add | mul =>
    simp only [aluExecute, Except.bind_eq_ok, regGet_eq_ok, regSet_eq_ok]
    constructor
    · rintro ⟨_, ⟨i, hi, rfl⟩, _, ⟨j, hj, rfl⟩, i', hi', rfl⟩
      obtain rfl : i' = i := Fin.ext (hi'.symm.trans hi)
      exact ⟨i', j, hi, hj, by simp⟩
    · rintro ⟨i, j, hi, hj, h⟩
      refine ⟨_, ⟨i, hi, rfl⟩, _, ⟨j, hj, rfl⟩, i, hi, ?_⟩
      simpa [eq_comm] using h
  | cmp =>
    simp only [aluExecute, Except.bind_eq_ok, regGet_eq_ok, Except.pure_eq_ok, Except.ok.injEq]
    constructor
    · rintro ⟨_, ⟨i, hi, rfl⟩, _, ⟨j, hj, rfl⟩, rfl⟩
      exact ⟨i, j, hi, hj, by simp⟩
    · rintro ⟨i, j, hi, hj, h⟩
      exact ⟨_, ⟨i, hi, rfl⟩, _, ⟨j, hj, rfl⟩, by simpa [eq_comm] using h⟩
  | other n => simp [aluExecute]

/-- What the ALU raises: its own fault for another selector, else the first operand byte above 7. -/
theorem aluExecute_eq_error {op : AluOp} {a b : Byte} {s : State} {f : Fault} : aluExecute op a b s = .error f ↔
    (∃ n, op = .other n ∧ f = .unsupportedALUOperation op) ∨
    ((∀ n, op ≠ .other n) ∧ ((7 < a.toNat ∧ f = .registerOutOfRange a) ∨
      (a.toNat ≤ 7 ∧ 7 < b.toNat ∧ f = .registerOutOfRange b))) := by
  have key : (∃ k : Fin 8, a.toNat = k.val) ↔ a.toNat ≤ 7 :=
    ⟨fun ⟨k, h⟩ => by omega, fun h => ⟨⟨a.toNat, by omega⟩, rfl⟩⟩
  cases op with
  | add | mul | cmp =>
    simp only [aluExecute, Except.bind_eq_error, regGet_eq_error, regGet_eq_ok, regSet_eq_error, Except.pure_eq_ok,
      reduceCtorEq, and_false, exists_false, or_false, false_and, false_or, ne_eq, not_false_eq_true, implies_true,
      true_and]
    constructor
    · rintro (h | ⟨_, ⟨k, hk, _⟩, h⟩)
      · exact .inl h
      · first
        | exact .inr ⟨by omega, h⟩
        | rcases h with h | ⟨_, _, h⟩
          · exact .inr ⟨by omega, h⟩
          · omega
    · rintro (h | ⟨ha, h⟩)
      · exact .inl h
      · obtain ⟨k, hk⟩ := key.2 ha
        first
        | exact .inr ⟨_, ⟨k, hk, rfl⟩, h⟩
        | exact .inr ⟨_, ⟨k, hk, rfl⟩, .inl h⟩
  | other n => simp [aluExecute, eq_comm]

/-! ### Fetch and decode -/

theorem fetch_eq_ok {s : State} {w : Window} : fetch s = .ok w ↔
    s.pc ≤ 253 ∧ (⟨s.mem.read s.pc, s.mem.read (s.pc + 1), s.mem.read (s.pc + 2)⟩ : Window) = w := by
  simp only [fetch, Except.bind_eq_ok, memRead_eq_ok, Except.pure_eq_ok, Except.ok.injEq]
  constructor
  · rintro ⟨_, ⟨_, _, rfl⟩, _, ⟨_, _, rfl⟩, _, ⟨_, h, rfl⟩, rfl⟩
    exact ⟨by omega, rfl⟩
  · rintro ⟨h, rfl⟩
    exact ⟨_, ⟨by omega, by omega, rfl⟩, _, ⟨by omega, by omega, rfl⟩, _, ⟨by omega, by omega, rfl⟩, rfl⟩

theorem fetch_eq_error {s : State} {f : Fault} : fetch s = .error f ↔
    253 < s.pc ∧ f = .addressOutOfRange (if s.pc ≤ 255 then 256 else s.pc) := by
  simp only [fetch, Except.bind_eq_error, memRead_eq_error, memRead_eq_ok, Except.pure_eq_ok, reduceCtorEq, and_false,
    exists_false, or_false]
  constructor
  · rintro (⟨h, rfl⟩ | ⟨_, ⟨_, h0, _⟩, ⟨h, rfl⟩ | ⟨_, ⟨_, h1, _⟩, h, rfl⟩⟩)
    · refine ⟨by omega, ?_⟩
      rw [if_neg (by omega)]
    · refine ⟨by omega, ?_⟩
      rw [if_pos (by omega), show (s.pc : Int) + 1 = 256 from by omega]
    · refine ⟨by omega, ?_⟩
      rw [if_pos (by omega), show (s.pc : Int) + 2 = 256 from by omega]
  · rintro ⟨h, rfl⟩
    by_cases h0 : s.pc ≤ 255
    · rw [if_pos h0]
      refine .inr ⟨_, ⟨by omega, by omega, rfl⟩, ?_⟩
      by_cases h1 : s.pc = 255
      · exact .inl ⟨by omega, by rw [h1]; rfl⟩
      · refine .inr ⟨_, ⟨by omega, by omega, rfl⟩, by omega, ?_⟩
        rw [show s.pc = 254 from by omega]; rfl
    · rw [if_neg h0]
      exact .inl ⟨by omega, rfl⟩

theorem fetchDecode_eq_ok {m : OpcodeMap} {s : State} {i : Instr} : fetchDecode m s = .ok i ↔
    s.pc ≤ 253 ∧ ∃ k, m.lookup (s.mem.read s.pc) = some k ∧
      i = k.toInstr (s.mem.read (s.pc + 1)) (s.mem.read (s.pc + 2)) := by
  simp only [fetchDecode, Except.bind_eq_ok, fetch_eq_ok]
  constructor
  · rintro ⟨_, ⟨h, rfl⟩, hd⟩
    split at hd
    · next j hj =>
      obtain ⟨k, hk, rfl⟩ := decodeWindow_eq_ok.1 hj
      exact ⟨h, k, hk, by simpa using hd.symm⟩
    · simp at hd
  · rintro ⟨h, k, hk, rfl⟩
    refine ⟨_, ⟨h, rfl⟩, ?_⟩
    rw [decodeWindow_eq_ok.2 ⟨k, hk, rfl⟩]
    rfl

theorem fetchDecode_eq_error {m : OpcodeMap} {s : State} {f : Fault} : fetchDecode m s = .error f ↔
    (253 < s.pc ∧ f = .addressOutOfRange (if s.pc ≤ 255 then 256 else s.pc)) ∨
    (s.pc ≤ 253 ∧ m.lookup (s.mem.read s.pc) = none ∧ f = .invalidOpcode (s.mem.read s.pc)) := by
  simp only [fetchDecode, Except.bind_eq_error, fetch_eq_ok, fetch_eq_error]
  refine or_congr_right ?_
  constructor
  · rintro ⟨_, ⟨h, rfl⟩, hd⟩
    split at hd
    · simp at hd
    · next e he => exact ⟨h, (decodeWindow_eq_error.1 he).1, by simpa using hd.symm⟩
  · rintro ⟨h, hk, rfl⟩
    refine ⟨_, ⟨h, rfl⟩, ?_⟩
    rw [decodeWindow_eq_error.2 ⟨hk, rfl⟩]

/-! ### Commit and the step -/

@[simp] theorem commit_ok (s t : State) : commit s (.ok t) = .next t := rfl

@[simp] theorem commit_error (s : State) (f : Fault) : commit s (.error f) = .next (takeFault f s) := rfl

/-- Commit answers the instruction's own result, or fault entry from the state before. -/
theorem commit_eq_next {s t : State} {r : Except Fault State} :
    commit s r = .next t ↔ r = .ok t ∨ ∃ f, r = .error f ∧ takeFault f s = t := by
  cases r <;> simp

/-- The step of an engine that is not Running. -/
theorem stepWith_of_not_running {m : OpcodeMap} {s : State} (h : s.status ≠ .running) : stepWith m s = .next s := by
  have : s.isRunning = false := by simp [State.isRunning, h]
  simp [stepWith, this]

/-- The step of a Running engine whose fetch or decode faults. -/
theorem stepWith_of_error {m : OpcodeMap} {s : State} {f : Fault} (h : s.status = .running)
    (hf : fetchDecode m s = .error f) : stepWith m s = .next (takeFault f s) := by
  simp [stepWith, s.isRunning_iff.2 h, hf]

/-- The step of a Running engine that fetches and decodes an instruction. -/
theorem stepWith_of_ok {m : OpcodeMap} {s : State} {i : Instr} (h : s.status = .running)
    (hi : fetchDecode m s = .ok i) : stepWith m s = exec i s := by
  simp [stepWith, s.isRunning_iff.2 h, hi]

end Sys2Proof.Machine
end

