-- ==== Sys2Proof/Laws/Exec.lean ====
section
/-! SUPPORT. What each instruction can do: its execute phase apart from the commit, and for each instruction an
equivalence for its success and one for the faults it raises. -/

namespace Sys2Proof.Machine

/-- The execute phase of an instruction before its commit. -/
def execPhase (i : Instr) (s : State) : Except Fault State :=
  match i with
  | .hlt => .ok (s.setStatus .halted)
  | .ldi n imm => do return (← regSet n (immediate imm) s).advance 3
  | .prn n => do return (s.emit (← regGet n s)).advance 2
  | .add a b => do return (← aluExecute .add a b s).advance 3
  | .mul a b => do return (← aluExecute .mul a b s).advance 3
  | .cmp a b => do return (← aluExecute .cmp a b s).advance 3
  | .push n => do return (← push (← regGet n s) s).advance 2
  | .pop n => do
    let k ← regIndex n
    let r ← pop s
    return (r.2.setX k r.1).advance 2
  | .call n => do
    let v ← regGet n s
    return (← push (returnAddress s) s).setPc (target v)
  | .ret => do
    let r ← pop s
    return r.2.setPc (target r.1)
  | .jmp n => jumpTo n s
  | .jeq n => if s.flags.e then jumpTo n s else .ok (s.advance 2)
  | .jne n => if s.flags.e then .ok (s.advance 2) else jumpTo n s

/-- Every meaning is the commit of its execute phase. -/
theorem exec_eq_commit (i : Instr) (s : State) : exec i s = commit s (execPhase i s) := by
  cases i <;> rfl

/-- An instruction answers what its phase gives, or fault entry. -/
theorem exec_eq_next {i : Instr} {s t : State} :
    exec i s = .next t ↔ execPhase i s = .ok t ∨ ∃ f, execPhase i s = .error f ∧ takeFault f s = t := by
  rw [exec_eq_commit, commit_eq_next]

/-! ### Success of each instruction -/

theorem execPhase_hlt {s t : State} : execPhase .hlt s = .ok t ↔ s.setStatus .halted = t := by simp [execPhase]

theorem execPhase_ldi {n imm : Byte} {s t : State} :
    execPhase (.ldi n imm) s = .ok t ↔ ∃ k : Fin 8, n.toNat = k.val ∧ (s.setX k imm).advance 3 = t := by
  simp [execPhase, Except.bind_eq_ok, regSet_eq_ok, immediate]

theorem execPhase_prn {n : Byte} {s t : State} :
    execPhase (.prn n) s = .ok t ↔ ∃ k : Fin 8, n.toNat = k.val ∧ (s.emit (s.x k)).advance 2 = t := by
  simp [execPhase, Except.bind_eq_ok, regGet_eq_ok]

theorem execPhase_add {a b : Byte} {s t : State} : execPhase (.add a b) s = .ok t ↔
    ∃ i j : Fin 8, a.toNat = i.val ∧ b.toNat = j.val ∧
      (s.setX i (BitVec.ofNat 8 ((s.x i).toNat + (s.x j).toNat))).advance 3 = t := by
  simp only [execPhase, Except.bind_eq_ok, aluExecute_eq_ok, Except.pure_eq_ok, Except.ok.injEq]
  constructor
  · rintro ⟨_, ⟨i, j, hi, hj, h⟩, rfl⟩
    exact ⟨i, j, hi, hj, by simp_all⟩
  · rintro ⟨i, j, hi, hj, rfl⟩
    exact ⟨_, ⟨i, j, hi, hj, .inl ⟨trivial, rfl⟩⟩, rfl⟩

theorem execPhase_mul {a b : Byte} {s t : State} : execPhase (.mul a b) s = .ok t ↔
    ∃ i j : Fin 8, a.toNat = i.val ∧ b.toNat = j.val ∧
      (s.setX i (BitVec.ofNat 8 ((s.x i).toNat * (s.x j).toNat))).advance 3 = t := by
  simp only [execPhase, Except.bind_eq_ok, aluExecute_eq_ok, Except.pure_eq_ok, Except.ok.injEq]
  constructor
  · rintro ⟨_, ⟨i, j, hi, hj, h⟩, rfl⟩
    exact ⟨i, j, hi, hj, by simp_all⟩
  · rintro ⟨i, j, hi, hj, rfl⟩
    exact ⟨_, ⟨i, j, hi, hj, .inr (.inl ⟨trivial, rfl⟩)⟩, rfl⟩

theorem execPhase_cmp {a b : Byte} {s t : State} : execPhase (.cmp a b) s = .ok t ↔
    ∃ i j : Fin 8, a.toNat = i.val ∧ b.toNat = j.val ∧
      (s.setFlags (compareFlags (s.x i) (s.x j))).advance 3 = t := by
  simp only [execPhase, Except.bind_eq_ok, aluExecute_eq_ok, Except.pure_eq_ok, Except.ok.injEq]
  constructor
  · rintro ⟨_, ⟨i, j, hi, hj, h⟩, rfl⟩
    exact ⟨i, j, hi, hj, by simp_all⟩
  · rintro ⟨i, j, hi, hj, rfl⟩
    exact ⟨_, ⟨i, j, hi, hj, .inr (.inr ⟨trivial, rfl⟩)⟩, rfl⟩

/-- The state a push leaves when it succeeds. -/
def pushed (v : Byte) (s : State) : State := (s.setMem (s.mem.write (s.sp - 1) v)).setSp (s.sp - 1)

theorem execPhase_push {n : Byte} {s t : State} : execPhase (.push n) s = .ok t ↔
    ∃ k : Fin 8, n.toNat = k.val ∧ 1 ≤ s.sp ∧ s.sp ≤ 256 ∧ (pushed (s.x k) s).advance 2 = t := by
  simp only [execPhase, Except.bind_eq_ok, regGet_eq_ok, push_eq_ok, Except.pure_eq_ok, Except.ok.injEq]
  constructor
  · rintro ⟨_, ⟨k, hk, rfl⟩, _, ⟨h0, h1, rfl⟩, rfl⟩
    exact ⟨k, hk, h0, h1, rfl⟩
  · rintro ⟨k, hk, h0, h1, rfl⟩
    exact ⟨_, ⟨k, hk, rfl⟩, _, ⟨h0, h1, rfl⟩, rfl⟩

theorem execPhase_pop {n : Byte} {s t : State} : execPhase (.pop n) s = .ok t ↔
    ∃ k : Fin 8, n.toNat = k.val ∧ s.sp ≤ 255 ∧
      ((s.setSp (s.sp + 1)).setX k (s.mem.read s.sp)).advance 2 = t := by
  simp only [execPhase, Except.bind_eq_ok, regIndex_eq_ok, pop_eq_ok, Except.pure_eq_ok, Except.ok.injEq]
  constructor
  · rintro ⟨k, hk, _, ⟨h, rfl⟩, rfl⟩
    exact ⟨k, hk, h, rfl⟩
  · rintro ⟨k, hk, h, rfl⟩
    exact ⟨k, hk, _, ⟨h, rfl⟩, rfl⟩

theorem execPhase_call {n : Byte} {s t : State} : execPhase (.call n) s = .ok t ↔
    ∃ k : Fin 8, n.toNat = k.val ∧ 1 ≤ s.sp ∧ s.sp ≤ 256 ∧
      (pushed (returnAddress s) s).setPc (s.x k).toNat = t := by
  simp only [execPhase, Except.bind_eq_ok, regGet_eq_ok, push_eq_ok, Except.pure_eq_ok, Except.ok.injEq, target]
  constructor
  · rintro ⟨_, ⟨k, hk, rfl⟩, _, ⟨h0, h1, rfl⟩, rfl⟩
    exact ⟨k, hk, h0, h1, rfl⟩
  · rintro ⟨k, hk, h0, h1, rfl⟩
    exact ⟨_, ⟨k, hk, rfl⟩, _, ⟨h0, h1, rfl⟩, rfl⟩

theorem execPhase_ret {s t : State} : execPhase .ret s = .ok t ↔
    s.sp ≤ 255 ∧ (s.setSp (s.sp + 1)).setPc (s.mem.read s.sp).toNat = t := by
  simp only [execPhase, Except.bind_eq_ok, pop_eq_ok, Except.pure_eq_ok, Except.ok.injEq, target]
  constructor
  · rintro ⟨_, ⟨h, rfl⟩, rfl⟩
    exact ⟨h, rfl⟩
  · rintro ⟨h, rfl⟩
    exact ⟨_, ⟨h, rfl⟩, rfl⟩

theorem jumpTo_eq_ok {n : Byte} {s t : State} :
    jumpTo n s = .ok t ↔ ∃ k : Fin 8, n.toNat = k.val ∧ s.setPc (s.x k).toNat = t := by
  simp [jumpTo, Except.bind_eq_ok, regGet_eq_ok, target]

theorem execPhase_jmp {n : Byte} {s t : State} :
    execPhase (.jmp n) s = .ok t ↔ ∃ k : Fin 8, n.toNat = k.val ∧ s.setPc (s.x k).toNat = t := jumpTo_eq_ok

theorem execPhase_jeq {n : Byte} {s t : State} : execPhase (.jeq n) s = .ok t ↔
    (s.flags.e = true ∧ ∃ k : Fin 8, n.toNat = k.val ∧ s.setPc (s.x k).toNat = t) ∨
    (s.flags.e = false ∧ s.advance 2 = t) := by
  cases he : s.flags.e <;> simp [execPhase, he, jumpTo_eq_ok]

theorem execPhase_jne {n : Byte} {s t : State} : execPhase (.jne n) s = .ok t ↔
    (s.flags.e = false ∧ ∃ k : Fin 8, n.toNat = k.val ∧ s.setPc (s.x k).toNat = t) ∨
    (s.flags.e = true ∧ s.advance 2 = t) := by
  cases he : s.flags.e <;> simp [execPhase, he, jumpTo_eq_ok]

/-! ### The faults of each instruction -/

theorem jumpTo_eq_error {n : Byte} {s : State} {f : Fault} :
    jumpTo n s = .error f ↔ 7 < n.toNat ∧ f = .registerOutOfRange n := by
  simp [jumpTo, Except.bind_eq_error, regGet_eq_error]

theorem execPhase_hlt_error {s : State} {f : Fault} : execPhase .hlt s ≠ .error f := by simp [execPhase]

theorem execPhase_ldi_error {n imm : Byte} {s : State} {f : Fault} :
    execPhase (.ldi n imm) s = .error f ↔ 7 < n.toNat ∧ f = .registerOutOfRange n := by
  simp [execPhase, Except.bind_eq_error, regSet_eq_error]

theorem execPhase_prn_error {n : Byte} {s : State} {f : Fault} :
    execPhase (.prn n) s = .error f ↔ 7 < n.toNat ∧ f = .registerOutOfRange n := by
  simp [execPhase, Except.bind_eq_error, regGet_eq_error]

theorem execPhase_add_error {a b : Byte} {s : State} {f : Fault} : execPhase (.add a b) s = .error f ↔
    (7 < a.toNat ∧ f = .registerOutOfRange a) ∨ (a.toNat ≤ 7 ∧ 7 < b.toNat ∧ f = .registerOutOfRange b) := by
  simp [execPhase, Except.bind_eq_error, aluExecute_eq_error]

theorem execPhase_mul_error {a b : Byte} {s : State} {f : Fault} : execPhase (.mul a b) s = .error f ↔
    (7 < a.toNat ∧ f = .registerOutOfRange a) ∨ (a.toNat ≤ 7 ∧ 7 < b.toNat ∧ f = .registerOutOfRange b) := by
  simp [execPhase, Except.bind_eq_error, aluExecute_eq_error]

theorem execPhase_cmp_error {a b : Byte} {s : State} {f : Fault} : execPhase (.cmp a b) s = .error f ↔
    (7 < a.toNat ∧ f = .registerOutOfRange a) ∨ (a.toNat ≤ 7 ∧ 7 < b.toNat ∧ f = .registerOutOfRange b) := by
  simp [execPhase, Except.bind_eq_error, aluExecute_eq_error]

/-- A byte names a register exactly when it is at most 7. -/
theorem exists_register_iff {n : Byte} : (∃ k : Fin 8, n.toNat = k.val) ↔ n.toNat ≤ 7 :=
  ⟨fun ⟨k, h⟩ => by omega, fun h => ⟨⟨n.toNat, by omega⟩, rfl⟩⟩

theorem regGet_isOk_iff {n : Byte} {s : State} : (∃ v, regGet n s = .ok v) ↔ n.toNat ≤ 7 := by
  simp only [regGet_eq_ok, ← exists_register_iff]
  exact ⟨fun ⟨_, k, h, _⟩ => ⟨k, h⟩, fun ⟨k, h⟩ => ⟨_, k, h, rfl⟩⟩

theorem execPhase_push_error {n : Byte} {s : State} {f : Fault} : execPhase (.push n) s = .error f ↔
    (7 < n.toNat ∧ f = .registerOutOfRange n) ∨
    (n.toNat ≤ 7 ∧ (s.sp = 0 ∨ 256 < s.sp) ∧ f = .addressOutOfRange (pushAddress s)) := by
  simp only [execPhase, Except.bind_eq_error, regGet_eq_error, push_eq_error, Except.pure_eq_ok, reduceCtorEq, and_false,
    exists_false, or_false, exists_and_right, regGet_isOk_iff]

theorem execPhase_pop_error {n : Byte} {s : State} {f : Fault} : execPhase (.pop n) s = .error f ↔
    (7 < n.toNat ∧ f = .registerOutOfRange n) ∨ (n.toNat ≤ 7 ∧ 255 < s.sp ∧ f = .addressOutOfRange s.sp) := by
  simp only [execPhase, Except.bind_eq_error, regIndex_eq_error, regIndex_eq_ok, pop_eq_error, Except.pure_eq_ok,
    reduceCtorEq, and_false, exists_false, or_false, exists_and_right, exists_register_iff]

theorem execPhase_call_error {n : Byte} {s : State} {f : Fault} : execPhase (.call n) s = .error f ↔
    (7 < n.toNat ∧ f = .registerOutOfRange n) ∨
    (n.toNat ≤ 7 ∧ (s.sp = 0 ∨ 256 < s.sp) ∧ f = .addressOutOfRange (pushAddress s)) := by
  simp only [execPhase, Except.bind_eq_error, regGet_eq_error, push_eq_error, Except.pure_eq_ok, reduceCtorEq, and_false,
    exists_false, or_false, exists_and_right, regGet_isOk_iff]

theorem execPhase_ret_error {s : State} {f : Fault} :
    execPhase .ret s = .error f ↔ 255 < s.sp ∧ f = .addressOutOfRange s.sp := by
  simp [execPhase, Except.bind_eq_error, pop_eq_error]

theorem execPhase_jmp_error {n : Byte} {s : State} {f : Fault} :
    execPhase (.jmp n) s = .error f ↔ 7 < n.toNat ∧ f = .registerOutOfRange n := jumpTo_eq_error

theorem execPhase_jeq_error {n : Byte} {s : State} {f : Fault} :
    execPhase (.jeq n) s = .error f ↔ s.flags.e = true ∧ 7 < n.toNat ∧ f = .registerOutOfRange n := by
  cases he : s.flags.e <;> simp [execPhase, he, jumpTo_eq_error]

theorem execPhase_jne_error {n : Byte} {s : State} {f : Fault} :
    execPhase (.jne n) s = .error f ↔ s.flags.e = false ∧ 7 < n.toNat ∧ f = .registerOutOfRange n := by
  cases he : s.flags.e <;> simp [execPhase, he, jumpTo_eq_error]

/-! ### What a step can do -/

/-- Inversion of a step: the engine had stopped; or fetch or decode faulted; or it ran the decoded instruction. -/
theorem stepWith_cases {m : OpcodeMap} {s t : State} (h : stepWith m s = .next t) :
    (s.status ≠ .running ∧ t = s) ∨ (s.status = .running ∧
      ((∃ f, fetchDecode m s = .error f ∧ t = takeFault f s) ∨
       ∃ i, fetchDecode m s = .ok i ∧ exec i s = .next t)) := by
  by_cases hr : s.status = .running
  · refine .inr ⟨hr, ?_⟩
    cases hf : fetchDecode m s with
    | ok i => rw [stepWith_of_ok hr hf] at h; exact .inr ⟨i, rfl, h⟩
    | error f => rw [stepWith_of_error hr hf] at h; exact .inl ⟨f, rfl, by simpa using h.symm⟩
  · rw [stepWith_of_not_running hr] at h
    exact .inl ⟨hr, by simpa using h.symm⟩

/-- An instruction that does not fault keeps the status, but for HLT. -/
theorem execPhase_status {i : Instr} {s t : State} (h : execPhase i s = .ok t) :
    t.status = s.status ∨ (i = .hlt ∧ t = s.setStatus .halted) := by
  cases i with
  | hlt => exact .inr ⟨rfl, (execPhase_hlt.1 h).symm⟩
  | ldi n imm => obtain ⟨_, _, rfl⟩ := execPhase_ldi.1 h; exact .inl rfl
  | prn n => obtain ⟨_, _, rfl⟩ := execPhase_prn.1 h; exact .inl rfl
  | add a b => obtain ⟨_, _, _, _, rfl⟩ := execPhase_add.1 h; exact .inl rfl
  | mul a b => obtain ⟨_, _, _, _, rfl⟩ := execPhase_mul.1 h; exact .inl rfl
  | cmp a b => obtain ⟨_, _, _, _, rfl⟩ := execPhase_cmp.1 h; exact .inl rfl
  | push n => obtain ⟨_, _, _, _, rfl⟩ := execPhase_push.1 h; exact .inl rfl
  | pop n => obtain ⟨_, _, _, rfl⟩ := execPhase_pop.1 h; exact .inl rfl
  | call n => obtain ⟨_, _, _, _, rfl⟩ := execPhase_call.1 h; exact .inl rfl
  | ret => obtain ⟨_, rfl⟩ := execPhase_ret.1 h; exact .inl rfl
  | jmp n => obtain ⟨_, _, rfl⟩ := execPhase_jmp.1 h; exact .inl rfl
  | jeq n => obtain ⟨_, _, _, rfl⟩ | ⟨_, rfl⟩ := execPhase_jeq.1 h <;> exact .inl rfl
  | jne n => obtain ⟨_, _, _, rfl⟩ | ⟨_, rfl⟩ := execPhase_jne.1 h <;> exact .inl rfl

/-! ### A register operand in range -/

theorem registerByte_eq_iff {k j : Fin 8} : (registerByte k).toNat = j.val ↔ j = k := by
  simp [Fin.ext_iff, eq_comm]

theorem registerByte_le (k : Fin 8) : (registerByte k).toNat ≤ 7 := by
  simp; omega

/-- A byte that names register k is `registerByte k`. -/
theorem eq_registerByte {n : Byte} {k : Fin 8} (h : n.toNat = k.val) : n = registerByte k :=
  BitVec.eq_of_toNat_eq (by simp [h])

end Sys2Proof.Machine
end

