-- ==== Sys2Proof/Laws/Memory.lean ====
section
/-! SUPPORT. The laws of memory as data: read after write, and the canonical form kept by every memory operation. -/

namespace Sys2Proof.Machine

theorem Memory.wfFrom_mono {lo lo' : Nat} (h : lo ≤ lo') : ∀ {m : Memory}, Memory.wfFrom lo' m = true → Memory.wfFrom lo m = true
  | [], _ => rfl
  | (k, v) :: rest, hm => by
    simp only [Memory.wfFrom, Bool.and_eq_true, decide_eq_true_eq] at hm ⊢
    exact ⟨⟨⟨h.trans hm.1.1.1, hm.1.1.2⟩, hm.1.2⟩, hm.2⟩

/-- Below its first address a canonical memory reads as 0. -/
theorem Memory.read_of_lt {a : Nat} : ∀ {lo : Nat} {m : Memory}, Memory.wfFrom lo m = true → a < lo → m.read a = 0
  | _, [], _, _ => rfl
  | lo, (k, v) :: rest, hm, h => by
    simp only [Memory.wfFrom, Bool.and_eq_true, decide_eq_true_eq] at hm
    have hk : k ≠ a := by omega
    simp only [Memory.read, hk, if_false]
    exact Memory.read_of_lt hm.2 (by omega)

/-- A write leaves every other cell alone (20_memory.md R52), whatever the list. -/
theorem Memory.read_write_ne {a b : Nat} (v : Byte) (h : a ≠ b) : ∀ m : Memory, (m.write a v).read b = m.read b
  | [] => by
    unfold Memory.write
    split <;> simp [Memory.read, h]
  | (k, w) :: rest => by
    unfold Memory.write
    split
    · split <;> simp [Memory.read, h]
    · split
      · next hk => subst hk; split <;> simp [Memory.read, h]
      · simp only [Memory.read, Memory.read_write_ne v h rest]

theorem Memory.read_write_self_from {a : Nat} (v : Byte) :
    ∀ {lo : Nat} {m : Memory}, Memory.wfFrom lo m = true → (m.write a v).read a = v
  | _, [], _ => by
    unfold Memory.write
    split <;> simp_all [Memory.read]
  | lo, (k, w) :: rest, hm => by
    have hrest := hm
    simp only [Memory.wfFrom, Bool.and_eq_true, decide_eq_true_eq] at hrest
    unfold Memory.write
    split
    · next hk =>
      split
      · next hv =>
        have hka : k ≠ a := by omega
        simp only [Memory.read, hka, if_false, hv]
        exact Memory.read_of_lt hrest.2 (by omega)
      · simp [Memory.read]
    · split
      · next hk =>
        split
        · next hv => rw [hv]; exact Memory.read_of_lt hrest.2 (by omega)
        · simp [Memory.read]
      · next hk =>
        have hka : k ≠ a := fun e => hk e.symm
        simp only [Memory.read, hka, if_false]
        exact Memory.read_write_self_from v hrest.2

/-- A read after a write to the same cell gives the value written. -/
theorem Memory.read_write_self {m : Memory} (hm : m.wf = true) (a : Nat) (v : Byte) : (m.write a v).read a = v :=
  Memory.read_write_self_from v hm

theorem Memory.wfFrom_write {a : Nat} (v : Byte) (ha : a < Config.memSize) :
    ∀ {lo : Nat} {m : Memory}, lo ≤ a → Memory.wfFrom lo m = true → Memory.wfFrom lo (m.write a v) = true
  | lo, [], hlo, _ => by
    unfold Memory.write
    split
    · rfl
    · next hv => simpa [Memory.wfFrom, hlo, ha] using hv
  | lo, (k, w) :: rest, hlo, hm => by
    have hrest := hm
    simp only [Memory.wfFrom, Bool.and_eq_true, decide_eq_true_eq] at hrest
    unfold Memory.write
    split
    · next hk =>
      split
      · exact hm
      · next hv =>
        simp only [Memory.wfFrom, Bool.and_eq_true, decide_eq_true_eq]
        exact ⟨⟨⟨hlo, ha⟩, hv⟩, ⟨⟨hk, hrest.1.1.2⟩, hrest.1.2⟩, hrest.2⟩
    · split
      · next hk =>
        subst hk
        split
        · exact Memory.wfFrom_mono (by omega) hrest.2
        · next hv =>
          simp only [Memory.wfFrom, Bool.and_eq_true, decide_eq_true_eq]
          exact ⟨⟨⟨hlo, ha⟩, hv⟩, hrest.2⟩
      · next h1 h2 =>
        simp only [Memory.wfFrom, Bool.and_eq_true, decide_eq_true_eq]
        exact ⟨hrest.1, Memory.wfFrom_write v ha (by omega) hrest.2⟩

/-- A write at an address of the address space keeps the canonical form. -/
theorem Memory.wf_write {m : Memory} (hm : m.wf = true) {a : Nat} (ha : a < Config.memSize) (v : Byte) :
    (m.write a v).wf = true :=
  Memory.wfFrom_write v ha (Nat.zero_le a) hm

theorem Memory.ext_from : ∀ {lo : Nat} {m m' : Memory}, Memory.wfFrom lo m = true → Memory.wfFrom lo m' = true →
    (∀ a, m.read a = m'.read a) → m = m'
  | _, [], [], _, _, _ => rfl
  | _, [], (k, v) :: rest, _, hm', h => by
    simp only [Memory.wfFrom, Bool.and_eq_true, decide_eq_true_eq] at hm'
    exact absurd (by simpa [Memory.read] using (h k).symm) hm'.1.2
  | _, (k, v) :: rest, [], hm, _, h => by
    simp only [Memory.wfFrom, Bool.and_eq_true, decide_eq_true_eq] at hm
    exact absurd (by simpa [Memory.read] using h k) hm.1.2
  | lo, (k, v) :: rest, (k', v') :: rest', hm, hm', h => by
    simp only [Memory.wfFrom, Bool.and_eq_true, decide_eq_true_eq] at hm hm'
    have hkk : k = k' := by
      rcases Nat.lt_trichotomy k k' with hlt | he | hlt
      · have := h k
        simp only [Memory.read, if_true, show k' ≠ k from by omega, if_false] at this
        exact absurd (this.trans (Memory.read_of_lt hm'.2 (by omega))) hm.1.2
      · exact he
      · have := h k'
        simp only [Memory.read, if_true, show k ≠ k' from by omega, if_false] at this
        exact absurd (this.symm.trans (Memory.read_of_lt hm.2 (by omega))) hm'.1.2
    subst hkk
    have hv : v = v' := by simpa [Memory.read] using h k
    subst hv
    have hr : rest = rest' := by
      apply Memory.ext_from hm.2 hm'.2
      intro a
      by_cases ha : k = a
      · subst ha
        rw [Memory.read_of_lt hm.2 (by omega), Memory.read_of_lt hm'.2 (by omega)]
      · simpa [Memory.read, ha] using h a
    rw [hr]

/-- Canonical memories that read alike are the same data. -/
theorem Memory.ext_of_wf {m m' : Memory} (hm : m.wf = true) (hm' : m'.wf = true) (h : ∀ a, m.read a = m'.read a) : m = m' :=
  Memory.ext_from hm hm' h

/-- Loading bytes that fit keeps the canonical form. -/
theorem Memory.wf_load : ∀ (p : List Byte) {m : Memory} {a : Nat}, m.wf = true → a + p.length ≤ Config.memSize →
    (m.load a p).wf = true
  | [], _, _, hm, _ => hm
  | v :: vs, m, a, hm, h => by
    simp only [List.length_cons] at h
    exact Memory.wf_load vs (Memory.wf_write hm (by omega) v) (by omega)

/-- Placing a fetch window keeps the canonical form. -/
theorem placeWindow_wf {s : State} (hm : s.mem.wf = true) (w : Window) : (placeWindow s w).mem.wf = true := by
  unfold placeWindow
  split
  · next h =>
    have hlt {a : Nat} (ha : a ≤ 255) : a < Config.memSize := Nat.lt_succ_of_le ha
    exact Memory.wf_write (Memory.wf_write (Memory.wf_write hm (hlt (by omega)) _) (hlt (by omega)) _) (hlt (by omega)) _
  · exact hm

end Sys2Proof.Machine
end

