-- ==== Sys2Proof/Laws/PerInstr.lean ====
section
/-! SUPPORT. Facts about every instruction as syntax, one lemma per constructor. -/

namespace Sys2Proof.Laws.EncodingShape

/-- The encoding has the length of the instruction's format (30_encoding.md R81, R92), and its operand bytes,
followed by any bytes of the fetch window, give the instruction back. -/
def Statement (i : Instr) : Prop :=
  (∀ m, (encode m i).length = i.length) ∧
    ∀ p q : Byte, i.mnemonic.toInstr ((i.operandBytes ++ [p, q]).getD 0 0) ((i.operandBytes ++ [p, q]).getD 1 0) = i

theorem hlt : Statement .hlt := ⟨fun _ => rfl, fun _ _ => rfl⟩
theorem ldi (n imm : Byte) : Statement (.ldi n imm) := ⟨fun _ => rfl, fun _ _ => rfl⟩
theorem prn (n : Byte) : Statement (.prn n) := ⟨fun _ => rfl, fun _ _ => rfl⟩
theorem add (a b : Byte) : Statement (.add a b) := ⟨fun _ => rfl, fun _ _ => rfl⟩
theorem mul (a b : Byte) : Statement (.mul a b) := ⟨fun _ => rfl, fun _ _ => rfl⟩
theorem cmp (a b : Byte) : Statement (.cmp a b) := ⟨fun _ => rfl, fun _ _ => rfl⟩
theorem push (n : Byte) : Statement (.push n) := ⟨fun _ => rfl, fun _ _ => rfl⟩
theorem pop (n : Byte) : Statement (.pop n) := ⟨fun _ => rfl, fun _ _ => rfl⟩
theorem call (n : Byte) : Statement (.call n) := ⟨fun _ => rfl, fun _ _ => rfl⟩
theorem ret : Statement .ret := ⟨fun _ => rfl, fun _ _ => rfl⟩
theorem jmp (n : Byte) : Statement (.jmp n) := ⟨fun _ => rfl, fun _ _ => rfl⟩
theorem jeq (n : Byte) : Statement (.jeq n) := ⟨fun _ => rfl, fun _ _ => rfl⟩
theorem jne (n : Byte) : Statement (.jne n) := ⟨fun _ => rfl, fun _ _ => rfl⟩

end Sys2Proof.Laws.EncodingShape
end

