-- ==== Sys2Proof/Laws/Run.lean ====
section
/-! SUPPORT. One more step of a run, of the model's `runWith` and of the host's run of any core. -/

namespace Sys2Proof.Machine

theorem runWith_of_not_running {m : OpcodeMap} {s : State} (h : s.isRunning = false) (fuel : Nat) :
    runWith m fuel s = .next s := by
  cases fuel <;> simp [runWith, h]

theorem runWith_succ {m : OpcodeMap} {s t : State} (h : s.isRunning = true) (ht : stepWith m s = .next t) (fuel : Nat) :
    runWith m (fuel + 1) s = runWith m fuel t := by
  conv_lhs => unfold runWith
  rw [if_pos h, ht]

theorem coreRun_succ (M : Host.Core) (n : Nat) (s t : M.State) (h : M.step s = .next t) :
    M.run (n + 1) s = M.run n t := by
  rw [Host.Core.run, h]

end Sys2Proof.Machine
end

