-- ==== Sys2Proof/Tests/Slice0.lean ====
section
/-! SUPPORT. The model's own tests: the refusals of WellFormed, the decoding of a word written out for every
constructor, one or two single steps per instruction with results from spec/95_test_vectors.md, and a witness for
the hypotheses of every statement that has some. -/

namespace Sys2Proof.Tests

open Sys2Proof Sys2Proof.Machine

/-! ### WellFormed refuses an index above 7 in each register position -/

theorem test_wf_ldi : (Instr.ldi 8 1).wellFormed = false := by decide
theorem test_wf_ldi_any_immediate : (Instr.ldi 7 255).wellFormed = true := by decide
theorem test_wf_prn : (Instr.prn 16).wellFormed = false := by decide
theorem test_wf_add_a : (Instr.add 9 0).wellFormed = false := by decide
theorem test_wf_add_b : (Instr.add 0 9).wellFormed = false := by decide
theorem test_wf_mul : (Instr.mul 0 8).wellFormed = false := by decide
theorem test_wf_cmp : (Instr.cmp 8 0).wellFormed = false := by decide
theorem test_wf_push : (Instr.push 8).wellFormed = false := by decide
theorem test_wf_pop : (Instr.pop 255).wellFormed = false := by decide
theorem test_wf_call : (Instr.call 8).wellFormed = false := by decide
theorem test_wf_jmp : (Instr.jmp 8).wellFormed = false := by decide
theorem test_wf_jeq : (Instr.jeq 9).wellFormed = false := by decide
theorem test_wf_jne : (Instr.jne 9).wellFormed = false := by decide

/-! ### Decoding: one word per constructor, written out from 30_encoding.md R84 and R92 -/

theorem test_decode_hlt : decode defaultOpcodeMap [0b00000001, 0xFF, 0xFF] = .ok .hlt := by rfl
theorem test_decode_ldi : decode defaultOpcodeMap [0b10000010, 0b00000111, 0b11111111] = .ok (.ldi 7 255) := by rfl
theorem test_decode_prn : decode defaultOpcodeMap [0b01000111, 0b00000101, 0xFF] = .ok (.prn 5) := by rfl
theorem test_decode_add : decode defaultOpcodeMap [0b10100000, 0b00000001, 0b00000010] = .ok (.add 1 2) := by rfl
theorem test_decode_mul : decode defaultOpcodeMap [0b10100010, 0b00000011, 0b00000100] = .ok (.mul 3 4) := by rfl
theorem test_decode_cmp : decode defaultOpcodeMap [0b10100111, 0b00000101, 0b00000110] = .ok (.cmp 5 6) := by rfl
theorem test_decode_push : decode defaultOpcodeMap [0b01000101, 0b00000001, 0] = .ok (.push 1) := by rfl
theorem test_decode_pop : decode defaultOpcodeMap [0b01000110, 0b00000010, 0] = .ok (.pop 2) := by rfl
theorem test_decode_call : decode defaultOpcodeMap [0b01010000, 0b00000001, 0] = .ok (.call 1) := by rfl
theorem test_decode_ret : decode defaultOpcodeMap [0b00010001, 0x07, 0x07] = .ok .ret := by rfl
theorem test_decode_jmp : decode defaultOpcodeMap [0b01010100, 0b00000011, 0] = .ok (.jmp 3) := by rfl
theorem test_decode_jeq : decode defaultOpcodeMap [0b01010101, 0b00000011, 0] = .ok (.jeq 3) := by rfl
theorem test_decode_jne : decode defaultOpcodeMap [0b01010110, 0b00000011, 0] = .ok (.jne 3) := by rfl

/-- The byte 0x13 is in no row (95_test_vectors.md V7). -/
theorem test_decode_illegal : decode defaultOpcodeMap [0x13, 0, 0] = .error (.invalidOpcode 0x13) := by rfl

/-- A table word: byte 0 in bits 7..0, byte 1 in bits 15..8, byte 2 in bits 23..16. -/
theorem test_table_word_ldi : decodeTableWord 24 0x080082 = some (.ldi 0 8) := by rfl
theorem test_table_word_ret : decodeTableWord 8 0x11 = some .ret := by rfl

/-- 30_encoding.md R92. -/
theorem test_encode_add : encode defaultOpcodeMap (.add 1 2) = [0xA0, 0x01, 0x02] := by decide

/-- 30_encoding.md R90. -/
theorem test_assembly_ldi : (Instr.ldi 0 8).assembly = "LDI R0,8" := by decide
theorem test_assembly_add : (Instr.add 0 1).assembly = "ADD R0,R1" := by decide

/-! ### One step on a small state -/

/-- The next state of a step, if that is its answer. -/
def next? (o : Host.Outcome State Fault Refusal) : Option State :=
  match o with
  | .next t => some t
  | .fault _ => none
  | .refused _ => none

/-- A field of the next state of one step. -/
def afterStep {α : Type} (s : State) (f : State → α) : Option α := (next? (Sys2Proof.Machine.step s)).map f

/-- The reset state with the first registers given, at a pc where a word of the table is placed. -/
def small (r0 r1 r2 r3 : Byte) (pc nbits w : Nat) : State :=
  let s := State.reset
  ((((s.setX 0 r0).setX 1 r1).setX 2 r2).setX 3 r3 |>.setPc pc).withFetchWord nbits w

/-- V10. -/
theorem test_hlt : afterStep (small 0 0 0 0 0 24 0xFFFF01) (fun t => (t.status, t.pc)) = some (.halted, 0) := by decide
/-- V1: the eager fetch at 254 faults, even for HLT. -/
theorem test_hlt_at_254 : afterStep ((State.reset.setPc 254).setMem [(254, 1)]) (fun t => (t.status, t.pc)) = some (.faulted ⟨.addressOutOfRange 256, 254⟩, 254) := by decide
/-- V12. -/
theorem test_ldi_at_253 : afterStep (small 0 0 0 0 253 24 0x050182) (fun t => (t.x 1, t.pc)) = some (5, 256) := by decide
/-- V13. -/
theorem test_ldi_bad_register : afterStep (small 0 0 0 0 0 24 0x010882) (fun t => (t.status, t.pc)) = some (.faulted ⟨.registerOutOfRange 8, 0⟩, 0) := by decide
/-- The example of 41_data_io.md R132. -/
theorem test_prn : afterStep (small 8 0 0 0 3 16 0x0047) (fun t => (t.out, t.pc)) = some ([8], 5) := by decide
/-- V16. -/
theorem test_prn_bad_register : afterStep (small 0 0 0 0 0 16 0x1047) (fun t => (t.status, t.out)) = some (.faulted ⟨.registerOutOfRange 16, 0⟩, []) := by decide
/-- V20. -/
theorem test_add_wraps : afterStep (small 250 10 0 0 0 24 0x0100A0) (fun t => (t.x 0, t.x 1, t.pc)) = some (4, 10, 3) := by decide
/-- V25: the same register twice. -/
theorem test_add_same_register : afterStep (small 0 0 200 0 0 24 0x0202A0) (fun t => t.x 2) = some 144 := by decide
/-- V26. -/
theorem test_mul_wraps : afterStep (small 16 17 0 0 0 24 0x0100A2) (fun t => (t.x 0, t.x 1, t.pc)) = some (16, 17, 3) := by decide
/-- V31. -/
theorem test_mul_same_register : afterStep (small 0 20 0 0 0 24 0x0101A2) (fun t => t.x 1) = some 144 := by decide
/-- V35: the comparison is unsigned. -/
theorem test_cmp_unsigned : afterStep (small 128 127 0 0 0 24 0x0100A7) (fun t => (t.flags, t.pc)) = some (⟨false, false, true⟩, 3) := by decide
/-- V32: an earlier flag is cleared. -/
theorem test_cmp_clears : afterStep ((small 3 0 3 0 0 24 0x0200A7).setFlags ⟨false, true, false⟩) (fun t => t.flags) = some ⟨true, false, false⟩ := by decide
/-- V40. -/
theorem test_push : afterStep (small 16 0 0 0 9 16 0x0045) (fun t => (t.sp, t.mem.read 0xF2, t.pc)) = some (0xF2, 16, 11) := by decide
/-- V42. -/
theorem test_push_at_zero : afterStep ((small 7 0 0 0 0 16 0x0045).setSp 0) (fun t => (t.status, t.sp)) = some (.faulted ⟨.addressOutOfRange (-1), 0⟩, 0) := by decide
/-- V45. -/
theorem test_pop_last : afterStep (((State.reset.setSp 255).setMem [(255, 0x2A)]).withFetchWord 16 0x0046) (fun t => (t.x 0, t.sp, t.mem.read 255)) = some (42, 256, 0x2A) := by decide
/-- V44. -/
theorem test_pop_past_end : afterStep ((small 0 0 0 0 0 16 0x0046).setSp 256) (fun t => (t.status, t.sp)) = some (.faulted ⟨.addressOutOfRange 256, 0⟩, 256) := by decide
/-- V50. -/
theorem test_call : afterStep (small 0 10 0 0 3 16 0x0150) (fun t => (t.mem.read 0xF2, t.sp, t.pc)) = some (5, 0xF2, 10) := by decide
/-- V51. -/
theorem test_call_at_253 : afterStep (small 0 0 0 0 253 16 0x0150) (fun t => (t.mem.read 0xF2, t.pc)) = some (255, 0) := by decide
/-- V53. -/
theorem test_ret : afterStep ((((State.reset.setPc 13).setSp 0xF2).setMem [(0xF2, 5)]).withFetchWord 8 0x11) (fun t => (t.pc, t.sp)) = some (5, 0xF3) := by decide
/-- V55: no CALL outstanding. -/
theorem test_ret_empty_stack : afterStep (small 0 0 0 0 20 8 0x11) (fun t => (t.pc, t.sp)) = some (0, 0xF4) := by decide
/-- V56. -/
theorem test_jmp : afterStep (small 0 0 0 12 20 16 0x0354) (fun t => t.pc) = some 12 := by decide
/-- V57. -/
theorem test_jmp_bad_register : afterStep (small 0 0 0 0 0 16 0x0854) (fun t => t.status) = some (.faulted ⟨.registerOutOfRange 8, 0⟩) := by decide
/-- V58. -/
theorem test_jeq_taken : afterStep ((small 0 0 0 12 20 16 0x0355).setFlags ⟨true, false, false⟩) (fun t => t.pc) = some 12 := by decide
/-- V61: not taken, the operand is not read. -/
theorem test_jeq_not_taken_bad_register : afterStep (small 0 0 0 0 20 16 0x0955) (fun t => (t.pc, t.status)) = some (22, .running) := by decide
/-- V65. -/
theorem test_jne_taken : afterStep ((small 0 0 0 12 20 16 0x0356).setFlags ⟨false, false, true⟩) (fun t => t.pc) = some 12 := by decide
/-- V66. -/
theorem test_jne_not_taken_bad_register : afterStep ((small 0 0 0 0 20 16 0x0956).setFlags ⟨true, false, false⟩) (fun t => (t.pc, t.status)) = some (22, .running) := by decide
/-- V3: the whole fetch comes before the decode. -/
theorem test_fetch_before_decode : afterStep ((State.reset.setPc 255).setMem [(255, 0xFF)]) (fun t => t.status) = some (.faulted ⟨.addressOutOfRange 256, 255⟩) := by decide
/-- V6: the empty image. -/
theorem test_empty_image : afterStep State.reset (fun t => (t.status, t.pc)) = some (.faulted ⟨.invalidOpcode 0, 0⟩, 0) := by decide
/-- V38: operand A before operand B. -/
theorem test_operand_order : afterStep (small 0 0 0 0 0 24 0x0A09A0) (fun t => t.status) = some (.faulted ⟨.registerOutOfRange 9, 0⟩) := by decide
/-- V43: the operand before the stack. -/
theorem test_operand_before_stack : afterStep ((small 0 0 0 0 0 16 0x0845).setSp 0) (fun t => t.status) = some (.faulted ⟨.registerOutOfRange 8, 0⟩) := by decide
/-- V5. -/
theorem test_halted_stays : afterStep (State.reset.setStatus .halted) id = some (State.reset.setStatus .halted) := by decide

/-- 10_state.md R31: `0b00000LGE`. -/
theorem test_packed_flags : Flags.packed ⟨true, false, false⟩ = 1 ∧ Flags.packed ⟨false, false, true⟩ = 2 ∧ Flags.packed ⟨false, true, false⟩ = 4 := by decide

/-- 60_exceptions.md R220. -/
theorem test_cause_codes : (Fault.addressOutOfRange 256).code = 1 ∧ (Fault.registerOutOfRange 8).code = 2 ∧
    (Fault.unsupportedALUOperation (.other 0)).code = 3 ∧ (Fault.invalidOpcode 0).code = 4 := by decide

/-- A load writes the image from address 0 on; a value above 255 refuses the whole (70_reset_and_hazards.md R263,
R264). -/
theorem test_load : (match loadBytes [0x82, 0, 8] State.reset with
    | .ok t => (t.mem.read 0, t.mem.read 2, t.mem.read 3)
    | .error _ => (0, 0, 0)) = (0x82, 8, 0) := by decide
theorem test_load_bad_value : loadBytes [0x82, 256] State.reset = .error (.badValue 256) := by rfl

/-- A canonical memory stays so when 0 is written. -/
theorem test_write_zero_removes : Memory.write [(3, 7), (5, 1)] 3 0 = [(5, 1)] := by decide

/-! ### Witnesses: states and operands that meet the hypotheses of each statement -/

/-- The launch state with PUSH R0 at address 0. -/
def w0 : State := State.reset.withFetchWord 16 0x0045

theorem witness_stepKeepsInvariant : Inv defaultOpcodeMap w0 ∧ (next? (stepWith defaultOpcodeMap w0)).isSome = true ∧
    (next? (Sys2Proof.Machine.step w0)).isSome = true := by decide
theorem witness_runKeepsInvariant : Inv defaultOpcodeMap w0 ∧ (next? (runWith defaultOpcodeMap 1 w0)).isSome = true := by decide
theorem witness_stepRunsDecodedInstruction : w0.status = .running ∧ memRead w0.pc w0 = .ok 0x45 ∧
    memRead (w0.pc + 1) w0 = .ok 0 ∧ memRead (w0.pc + 2) w0 = .ok 0 ∧
    decode defaultOpcodeMap [0x45, 0, 0] = .ok (.push 0) := ⟨rfl, by decide, by decide, by decide, rfl⟩
theorem witness_stoppedEngine_halted : (State.reset.setStatus .halted).status ≠ .running := by decide
theorem witness_stoppedEngine_faulted : (takeFault (.invalidOpcode 0) State.reset).status ≠ .running := by decide
theorem witness_fetchPastTheEnd_254 : (State.reset.setPc 254).status = .running ∧ 254 ≤ (State.reset.setPc 254).pc ∧ (State.reset.setPc 254).pc ≤ 256 := by decide
theorem witness_fetchPastTheEnd_256 : 254 ≤ (State.reset.setPc 256).pc ∧ (State.reset.setPc 256).pc ≤ 256 := by decide
theorem witness_fetchPastTheEnd_257 : 254 ≤ (State.reset.setPc 257).pc ∧ 256 < (State.reset.setPc 257).pc := by decide
theorem witness_faultEntry_fetch : State.reset.status = .running ∧
    fetchDecode defaultOpcodeMap State.reset = .error (.invalidOpcode 0) := ⟨rfl, rfl⟩
theorem witness_faultEntry_instruction : (w0.setSp 0).status = .running ∧
    afterStep (w0.setSp 0) (fun t => t.status) = some (.faulted ⟨.addressOutOfRange (-1), 0⟩) := by decide
theorem witness_haltedOnlyByHlt : OpcodeMap.Valid defaultOpcodeMap ∧
    (State.reset.withFetchWord 8 1).status = .running ∧
    afterStep (State.reset.withFetchWord 8 1) (fun t => t.status) = some .halted := by decide
theorem witness_decodeEncodeRoundTrip : OpcodeMap.Valid defaultOpcodeMap ∧ 3 ≤ (encode defaultOpcodeMap .ret ++ [7, 7]).length := by decide
theorem witness_encodeOfDecodedIsPrefix : decode defaultOpcodeMap [0x11, 7, 7] = .ok .ret := by rfl
theorem witness_decodeMatches_opcode : OpcodeMap.Valid defaultOpcodeMap ∧ w0.status = .running ∧ w0.pc ≤ 253 ∧
    defaultOpcodeMap .push = 0x45 := by decide
theorem witness_decodeMatches_read : memRead w0.pc w0 = .ok 0x45 := by rfl
theorem witness_invalidOpcode : State.reset.status = .running ∧ State.reset.pc ≤ 253 ∧
    memRead State.reset.pc State.reset = .ok 0 ∧ ∀ k, defaultOpcodeMap k ≠ 0 :=
  ⟨rfl, by decide, rfl, fun k => by cases k <;> decide⟩
theorem witness_registerIndex : (7 : Byte).toNat ≤ 7 ∧ 7 < (8 : Byte).toNat := by decide
theorem witness_memRead : (0 : Int) ≤ 255 ∧ (255 : Int) ≤ 255 ∧ (255 : Int) < 256 ∧ (-1 : Int) < 0 := by decide
theorem witness_writeThenRead : w0.mem.wf = true ∧ (0 : Int) ≤ 255 ∧ (255 : Int) ≤ 255 ∧ (255 : Int) < 256 := by decide
theorem witness_memoryIsWhatItReads : w0.mem.wf = true ∧ (w0.setPc 3).mem.wf = true ∧ SameMemory w0 (w0.setPc 3) :=
  ⟨by decide, by decide, fun _ => rfl⟩
theorem witness_cmpOutcome : (small 3 3 0 9 0 0 0).x 0 = 3 ∧ (small 3 3 0 9 0 0 0).x 1 = 3 ∧
    (small 3 3 0 9 0 0 0).x 3 = 9 ∧ (3 : Byte).toNat = (3 : Byte).toNat ∧ (3 : Byte).toNat < (9 : Byte).toNat ∧
    (9 : Byte).toNat > (3 : Byte).toNat := by decide
theorem witness_aluTouches : aluExecute .add 0 1 w0 = .ok (w0.setX 0 (BitVec.ofNat 8 0)) ∧
    ∀ k : Fin 8, k.val = (0 : Byte).toNat ∨ k.val = (1 : Byte).toNat → (w0.setX 5 9).x k = w0.x k :=
  ⟨rfl, by decide⟩
theorem witness_unsupportedAlu : afterStep State.reset (fun t => t.status) = some (.faulted ⟨.invalidOpcode 0, 0⟩) := by decide
theorem witness_flagsByCmp_step : (next? (stepWith defaultOpcodeMap (small 3 0 0 0 0 24 0x0100A7))).map (fun t => t.flags) ≠
    some (small 3 0 0 0 0 24 0x0100A7).flags := by decide
theorem witness_flagsByCmp_exec : (∀ a b, Instr.push 0 ≠ .cmp a b) ∧ (next? (exec (.push 0) w0)).isSome = true :=
  ⟨by simp, by decide⟩
theorem witness_flagsByCmp_add : (next? (exec (.add 0 1) w0)).isSome = true ∧ (next? (exec (.mul 0 9) w0)).isSome = true := by decide
theorem witness_noInstructionReadsLOrG : (next? (stepWith defaultOpcodeMap (w0.setFlags ⟨false, true, false⟩))).isSome = true := by decide
theorem witness_pushOperation : w0.mem.wf = true ∧ w0.sp ≤ 256 ∧ 1 ≤ w0.sp ∧ (w0.setSp 256).sp = 256 ∧
    (w0.setSp 256).sp ≤ 256 ∧ (w0.setSp 0).sp = 0 := by decide
theorem witness_popOperation : (w0.setSp 254).sp ≤ 255 ∧ (w0.setSp 255).sp = 255 ∧ (w0.setSp 256).sp = 256 := by decide
theorem witness_pushResult : w0.mem.wf = true ∧ 1 ≤ (w0.setSp 1).sp ∧ (w0.setSp 256).sp ≤ 256 := by decide
theorem witness_popResult : w0.sp ≤ 255 ∧ (w0.setSp 255).sp ≤ 255 := by decide
theorem witness_pushThenPop : w0.mem.wf = true ∧ 1 ≤ w0.sp ∧ w0.sp ≤ 256 := by decide
theorem witness_stackAccessFaults : (w0.setSp 0).sp = 0 ∧ (w0.setSp 256).sp = 256 := by decide
theorem witness_registerSeven : (∃ k : Fin 8, k ≠ 7 ∧ (Instr.push 0 = .push (registerByte k) ∨
    Instr.push 0 = .pop (registerByte k) ∨ Instr.push 0 = .call (registerByte k))) ∧
    (next? (exec (.push 0) w0)).isSome = true ∧ (next? (exec .ret w0)).isSome = true :=
  ⟨⟨0, by decide, .inl rfl⟩, by decide, by decide⟩
theorem witness_fetchSeesStackWrites : w0.mem.wf = true ∧ 1 ≤ w0.sp ∧ w0.sp ≤ 256 ∧ w0.pc ≤ 253 ∧ (0xF2 : Nat) ≤ 253 ∧
    (Instr.push 0 = .push (registerByte 0) ∧ (0 : Byte) = w0.x 0) ∧
    (Instr.call 0 = .call (registerByte 0) ∧ (2 : Byte).toNat = w0.pc + 2) ∧
    (next? (exec (.push 0) w0)).isSome = true ∧ (next? (exec (.call 0) w0)).isSome = true :=
  ⟨by decide, by decide, by decide, by decide, by decide, ⟨rfl, rfl⟩, ⟨rfl, rfl⟩, rfl, rfl⟩
theorem witness_callResult : w0.mem.wf = true ∧ 1 ≤ w0.sp ∧ w0.sp ≤ 256 ∧ (w0.setPc 253).pc ≤ 253 := by decide
theorem witness_retResult : (w0.setSp 255).sp ≤ 255 := by decide
theorem witness_jeqResult : (w0.setFlags ⟨true, false, false⟩).flags.e = true ∧ w0.flags.e = false := by decide
theorem witness_jneResult : w0.flags.e = false ∧ (w0.setFlags ⟨true, false, false⟩).flags.e = true := by decide

/-- The state after CALL R0 on `w0`. -/
def wCalled : State := ((w0.setMem (w0.mem.write 0xF2 2)).setSp 0xF2).setPc 0

theorem witness_callThenRet : w0.mem.wf = true ∧ 1 ≤ w0.sp ∧ w0.sp ≤ 256 ∧ w0.pc ≤ 253 ∧
    exec (.call (registerByte 0)) w0 = .next wCalled ∧ (wCalled.setX 1 7).sp = wCalled.sp ∧
    memRead (wCalled.setX 1 7).sp (wCalled.setX 1 7) = memRead wCalled.sp wCalled :=
  ⟨by decide, by decide, by decide, by decide, rfl, rfl, rfl⟩
theorem witness_pcUpdate : w0.status = .running ∧ exec (.jmp 0) w0 = .next (w0.setPc 0) ∧
    ∀ r, (w0.setPc 0).status ≠ .faulted r :=
  ⟨rfl, rfl, fun _ h => by cases h⟩
theorem witness_registerOutOfRange : w0.status = .running ∧ (∃ v ∈ usedRegisterOperands (.add 1 9) false, 7 < v.toNat) ∧
    exec (.add 1 9) w0 = .next (takeFault (.registerOutOfRange 9) w0) :=
  ⟨rfl, ⟨9, by decide, by decide⟩, rfl⟩
theorem witness_firstBadOperand : (usedRegisterOperands (.add 9 10) w0.flags.e).find? (fun u => decide (7 < u.toNat)) = some 9 := by decide
theorem witness_stackPointerChanged : afterStep w0 (fun t => t.sp) = some 0xF2 ∧
    afterStep (State.reset.withFetchWord 8 0x11) (fun t => t.sp) = some 0xF4 := by decide
theorem witness_memoryWritten : (next? (stepWith defaultOpcodeMap (small 16 0 0 0 9 16 0x0045))).map (fun t => t.mem.read 0xF2) ≠
    some ((small 16 0 0 0 9 16 0x0045).mem.read 0xF2) := by decide
theorem witness_outputOnlyGrows : afterStep (small 8 0 0 0 3 16 0x0047) (fun t => t.out) = some [8] := by decide
theorem witness_registersWritten : (next? (exec (.ldi 0 8) w0)).map (fun t => t.x 0) = some 8 ∧ w0.x 0 ≠ 8 := by decide
theorem witness_loadBytesPlacesImage : ([0x82, 0, 8] : List Byte).length ≤ 256 := by decide
theorem witness_launchState : ([] : List Byte).length ≤ 256 := by decide
theorem witness_runEndsInOneState : Ends defaultOpcodeMap (State.reset.withFetchWord 8 1)
    ((State.reset.withFetchWord 8 1).setStatus .halted) :=
  ⟨1, rfl, rfl⟩

end Sys2Proof.Tests
end

section
/-! PROOFS of 10_state.md: the register file's two operations (R21, R22). -/

namespace Sys2Proof.Machine

/-- The memory port reads nothing but memory, so an update that leaves memory alone changes no read. -/
theorem SameMemory.of_mem_eq {s t : State} (h : t.mem = s.mem) : SameMemory s t := fun a => by
  simp only [memRead, h]

/-- `get` after a store in one register: that register gives the value stored, every other as before
(10_state.md R21). -/
theorem regGet_registerByte_setX (s : State) (k j : Fin 8) (v : Byte) :
    regGet (registerByte j) (s.setX k v) = if k = j then .ok v else regGet (registerByte j) s := by
  rw [regGet_registerByte, regGet_registerByte, State.x_setX, apply_ite Except.ok]

theorem regSet_isOk_iff {i : Byte} {v : Nat} {s : State} : (∃ t, regSet i v s = .ok t) ↔ i.toNat ≤ 7 := by
  simp only [regSet_eq_ok, ← exists_register_iff]
  exact ⟨fun ⟨_, k, h, _⟩ => ⟨k, h⟩, fun ⟨k, h⟩ => ⟨_, k, h, rfl⟩⟩

/-- Settles O16: `set` is `setX` of the value's low byte, and `setX` writes the register array only. -/
theorem registerSetThenGet : Obligations.RegisterSetThenGet := by
  intro s k v
  refine ⟨regGet_registerByte k s, s.setX k (BitVec.ofNat 8 v), regSet_registerByte k v s, ?stored, ?others,
    State.setX_pc .., State.setX_sp .., State.setX_flags .., State.setX_status ..,
    .of_mem_eq (State.setX_mem ..), State.setX_out ..⟩
  case stored =>
    exact ⟨BitVec.ofNat 8 v, by rw [regGet_registerByte_setX, if_pos rfl], BitVec.toNat_ofNat v 8⟩
  case others =>
    intro j hj
    rw [regGet_registerByte_setX, if_neg hj.symm]

/-- Settles O17: both operations answer through the one check of the whole index byte. -/
theorem registerIndexIsChecked : Obligations.RegisterIndexIsChecked := by
  intro i v s
  constructor
  · intro h
    exact ⟨regGet_isOk_iff.2 h, regSet_isOk_iff.2 h⟩
  · intro h
    exact ⟨regGet_eq_error.2 ⟨h, rfl⟩, regSet_eq_error.2 ⟨h, rfl⟩⟩

end Sys2Proof.Machine
end

section
/-! PROOFS of 20_memory.md: the memory port's read (R50). -/

namespace Sys2Proof.Machine

/-- Settles O18: the two clauses are the port's two answers, a byte inside [0,255] and a fault outside it. -/
theorem memReadChecksItsAddress : Obligations.MemReadChecksItsAddress := by
  intro a s
  constructor
  · intro hlow hhigh
    exact memRead_eq_ok.2 ⟨hlow, hhigh, rfl⟩
  · intro hout
    exact memRead_eq_error.2 ⟨hout, rfl⟩

end Sys2Proof.Machine
end

section
/-! PROOFS of 30_encoding.md: the match of the whole opcode byte (R86). -/

namespace Sys2Proof

/-- Under a valid map the mnemonic found for a byte is the one that has this byte (30_encoding.md R84, R86). -/
theorem OpcodeMap.Valid.lookup_eq_some {m : OpcodeMap} (hm : m.Valid) {op : Byte} {k : Mnemonic} :
    m.lookup op = some k ↔ m k = op := by
  constructor
  · exact OpcodeMap.byte_of_lookup
  · intro hk
    cases hl : m.lookup op with
    | none => exact absurd hk (OpcodeMap.lookup_eq_none.1 hl k)
    | some j => rw [hm.injective ((OpcodeMap.byte_of_lookup hl).trans hk.symm)]

end Sys2Proof

namespace Sys2Proof.Machine

/-- A mnemonic's byte at pc, with the fetch window inside memory, decodes to an instruction of that mnemonic. -/
theorem AtMnemonic.fetchDecode_ok {m : OpcodeMap} {s : State} {k : Mnemonic} (hm : m.Valid) (h : AtMnemonic m s k) :
    ∃ i, fetchDecode m s = .ok i ∧ i.mnemonic = k := by
  obtain ⟨_, hpc, hread⟩ := h
  obtain ⟨_, _, hbyte⟩ := memRead_eq_ok.1 hread
  exact ⟨_, fetchDecode_eq_ok.2 ⟨hpc, k, hm.lookup_eq_some.2 hbyte.symm, rfl⟩, Mnemonic.toInstr_mnemonic ..⟩

/-- A byte outside the map at pc, with the fetch window inside memory, is the InvalidOpcode that is raised; the map
need not be valid for it. -/
theorem fetchDecode_invalidOpcode {m : OpcodeMap} {s : State} {op : Byte} (hpc : s.pc ≤ 253)
    (hread : memRead s.pc s = .ok op) (hop : ∀ k, m k ≠ op) : fetchDecode m s = .error (.invalidOpcode op) := by
  obtain ⟨_, _, rfl⟩ := memRead_eq_ok.1 hread
  exact fetchDecode_eq_error.2 (.inr ⟨hpc, OpcodeMap.lookup_eq_none.2 hop, rfl⟩)

/-- Settles O13: the lookup finds the one mnemonic that has the byte, or none; fault entry then records the byte
with pc. -/
theorem decodeMatchesWholeOpcodeByte : Obligations.DecodeMatchesWholeOpcodeByte := by
  intro m hm s op hrun hpc hread
  constructor
  · rintro k rfl
    exact AtMnemonic.fetchDecode_ok hm ⟨hrun, hpc, hread⟩
  · intro hop
    have hfault := fetchDecode_invalidOpcode hpc hread hop
    exact ⟨hfault, stepWith_of_error hrun hfault⟩

end Sys2Proof.Machine
end

section
/-! PROOFS of 40_cycle.md: how each instruction updates pc (R116). -/

namespace Sys2Proof.Machine

/-- An instruction whose answer is not Faulted committed what its execute phase gave (40_cycle.md R115). -/
theorem execPhase_of_not_faulted {i : Instr} {s t : State} (h : exec i s = .next t)
    (hnf : ∀ r, t.status ≠ .faulted r) : execPhase i s = .ok t := by
  obtain hok | ⟨f, _, rfl⟩ := exec_eq_next.1 h
  · exact hok
  · exact absurd (takeFault_status f s) (hnf _)

/-- A byte taken as a pc is that number, in [0,255] and not reduced (44_control.md R190). -/
theorem ok_ofNat_target {x : Except Fault Byte} {v : Byte} (h : x = .ok v) :
    x = .ok (BitVec.ofNat 8 (target v)) ∧ target v ≤ 255 :=
  ⟨by rw [target, BitVec.ofNat_toNat, BitVec.setWidth_eq, h], Nat.le_of_lt_succ v.isLt⟩

/-- The value of a register operand taken as a pc. -/
theorem regGet_ok_ofNat_target {n : Byte} {k : Fin 8} (hk : n.toNat = k.val) (s : State) :
    regGet n s = .ok (BitVec.ofNat 8 (target (s.x k))) ∧ target (s.x k) ≤ 255 :=
  ok_ofNat_target (regGet_eq_ok.2 ⟨k, hk, rfl⟩)

/-- Settles O47: without a fault the next state is the execute phase's, whose last update of pc is the advance or
the target. -/
theorem pcUpdate : Obligations.PcUpdate := by
  intro i s t _ hexec hnf
  have h := execPhase_of_not_faulted hexec hnf
  cases i with
  | hlt => obtain rfl := execPhase_hlt.1 h; exact State.setStatus_pc ..
  | ldi n imm => obtain ⟨_, _, rfl⟩ := execPhase_ldi.1 h; exact State.advance_pc ..
  | prn n => obtain ⟨_, _, rfl⟩ := execPhase_prn.1 h; exact State.advance_pc ..
  | add a b => obtain ⟨_, _, _, _, rfl⟩ := execPhase_add.1 h; exact State.advance_pc ..
  | mul a b => obtain ⟨_, _, _, _, rfl⟩ := execPhase_mul.1 h; exact State.advance_pc ..
  | cmp a b => obtain ⟨_, _, _, _, rfl⟩ := execPhase_cmp.1 h; exact State.advance_pc ..
  | push n => obtain ⟨_, _, _, _, rfl⟩ := execPhase_push.1 h; exact State.advance_pc ..
  | pop n => obtain ⟨_, _, _, rfl⟩ := execPhase_pop.1 h; exact State.advance_pc ..
  | call n => obtain ⟨_, hk, _, _, rfl⟩ := execPhase_call.1 h; exact regGet_ok_ofNat_target hk s
  | ret => obtain ⟨hsp, rfl⟩ := execPhase_ret.1 h; exact ok_ofNat_target (memRead_natCast hsp s)
  | jmp n => obtain ⟨_, hk, rfl⟩ := execPhase_jmp.1 h; exact regGet_ok_ofNat_target hk s
  | jeq n =>
    obtain ⟨he, _, hk, rfl⟩ | ⟨he, rfl⟩ := execPhase_jeq.1 h <;> simp only [he]
    · exact regGet_ok_ofNat_target hk s
    · exact State.advance_pc ..
  | jne n =>
    obtain ⟨he, _, hk, rfl⟩ | ⟨he, rfl⟩ := execPhase_jne.1 h <;> simp only [he]
    · exact regGet_ok_ofNat_target hk s
    · exact State.advance_pc ..

end Sys2Proof.Machine
end

section
/-! PROOFS of 42_alu.md: what the ALU reads and writes (R150), who writes the flags (R156), CMP's outcomes (R157). -/

namespace Sys2Proof.Machine

/-- A successful ALU operation is one write, of register A or of the flags; the value written comes from the two
operands, so every state that agrees on them gets the same write (42_alu.md R150). -/
theorem aluExecute_same_write {op : AluOp} {a b : Byte} {s t : State} (h : aluExecute op a b s = .ok t) :
    ∃ i j : Fin 8, a.toNat = i.val ∧ b.toNat = j.val ∧
      (((op = .add ∨ op = .mul) ∧ ∃ v, t = s.setX i v ∧
          ∀ s' : State, s'.x i = s.x i → s'.x j = s.x j → aluExecute op a b s' = .ok (s'.setX i v)) ∨
       (op = .cmp ∧ ∃ f, t = s.setFlags f ∧
          ∀ s' : State, s'.x i = s.x i → s'.x j = s.x j → aluExecute op a b s' = .ok (s'.setFlags f))) := by
  obtain ⟨i, j, ha, hb, ⟨rfl, rfl⟩ | ⟨rfl, rfl⟩ | ⟨rfl, rfl⟩⟩ := aluExecute_eq_ok.1 h
  · refine ⟨i, j, ha, hb, .inl ⟨.inl rfl, _, rfl, fun s' hi hj => ?_⟩⟩
    exact aluExecute_eq_ok.2 ⟨i, j, ha, hb, .inl ⟨rfl, by rw [hi, hj]⟩⟩
  · refine ⟨i, j, ha, hb, .inl ⟨.inr rfl, _, rfl, fun s' hi hj => ?_⟩⟩
    exact aluExecute_eq_ok.2 ⟨i, j, ha, hb, .inr (.inl ⟨rfl, by rw [hi, hj]⟩)⟩
  · refine ⟨i, j, ha, hb, .inr ⟨rfl, _, rfl, fun s' hi hj => ?_⟩⟩
    exact aluExecute_eq_ok.2 ⟨i, j, ha, hb, .inr (.inr ⟨rfl, by rw [hi, hj]⟩)⟩

/-- Settles O29: the one write of the ALU, in both states, is `setX` of register A or `setFlags`. -/
theorem aluTouchesOnlyItsOperands : Obligations.AluTouchesOnlyItsOperands := by
  intro op a b s t h
  obtain ⟨i, j, ha, hb, ⟨hop, v, rfl, hsame⟩ | ⟨rfl, f, rfl, hsame⟩⟩ := aluExecute_same_write h
  · refine ⟨.inl ⟨hop, State.setX_flags .., fun k hk => ?others⟩, State.setX_mem .., State.setX_pc .., State.setX_sp ..,
      State.setX_status .., State.setX_out .., fun s' hs' => ?same⟩
    case others =>
      have hik : i ≠ k := fun hik => hk (by rw [ha, hik])
      exact State.x_setX_ne s v hik
    case same =>
      refine ⟨s'.setX i v, hsame s' (hs' i (.inl ha.symm)) (hs' j (.inr hb.symm)), fun hcmp => ?_, fun k hk => ?_⟩
      · simp [hcmp] at hop
      · obtain rfl : k = i := Fin.ext (hk.trans ha)
        rw [State.x_setX_self, State.x_setX_self]
  · refine ⟨.inr ⟨rfl, State.x_setFlags s f⟩, State.setFlags_mem .., State.setFlags_pc .., State.setFlags_sp ..,
      State.setFlags_status .., State.setFlags_out .., fun s' hs' => ?_⟩
    exact ⟨s'.setFlags f, hsame s' (hs' i (.inl ha.symm)) (hs' j (.inr hb.symm)), fun _ => rfl,
      fun k hk => hs' k (.inl hk)⟩

/-- An execute phase that succeeds leaves the flags alone, but for CMP's (42_alu.md R156). -/
theorem execPhase_flags {i : Instr} {s t : State} (h : execPhase i s = .ok t) :
    t.flags = s.flags ∨ ∃ a b, i = .cmp a b := by
  cases i with
  | hlt => obtain rfl := execPhase_hlt.1 h; exact .inl rfl
  | ldi n imm => obtain ⟨_, _, rfl⟩ := execPhase_ldi.1 h; exact .inl rfl
  | prn n => obtain ⟨_, _, rfl⟩ := execPhase_prn.1 h; exact .inl rfl
  | add a b => obtain ⟨_, _, _, _, rfl⟩ := execPhase_add.1 h; exact .inl rfl
  | mul a b => obtain ⟨_, _, _, _, rfl⟩ := execPhase_mul.1 h; exact .inl rfl
  | cmp a b => exact .inr ⟨a, b, rfl⟩
  | push n => obtain ⟨_, _, _, _, rfl⟩ := execPhase_push.1 h; exact .inl rfl
  | pop n => obtain ⟨_, _, _, rfl⟩ := execPhase_pop.1 h; exact .inl rfl
  | call n => obtain ⟨_, _, _, _, rfl⟩ := execPhase_call.1 h; exact .inl rfl
  | ret => obtain ⟨_, rfl⟩ := execPhase_ret.1 h; exact .inl rfl
  | jmp n => obtain ⟨_, _, rfl⟩ := execPhase_jmp.1 h; exact .inl rfl
  | jeq n => obtain ⟨_, _, _, rfl⟩ | ⟨_, rfl⟩ := execPhase_jeq.1 h <;> exact .inl rfl
  | jne n => obtain ⟨_, _, _, rfl⟩ | ⟨_, rfl⟩ := execPhase_jne.1 h <;> exact .inl rfl

/-- An instruction that changes the flags is a CMP; fault entry changes none. -/
theorem exec_flags {i : Instr} {s t : State} (h : exec i s = .next t) : t.flags = s.flags ∨ ∃ a b, i = .cmp a b := by
  obtain hok | ⟨f, _, rfl⟩ := exec_eq_next.1 h
  · exact execPhase_flags hok
  · exact .inl (takeFault_flags f s)

/-- The byte at pc of a Running engine is the one of the mnemonic it decodes, whether the map is valid or not. -/
theorem atMnemonic_of_fetchDecode {m : OpcodeMap} {s : State} {i : Instr} (hrun : s.status = .running)
    (h : fetchDecode m s = .ok i) : AtMnemonic m s i.mnemonic := by
  obtain ⟨hpc, k, hk, rfl⟩ := fetchDecode_eq_ok.1 h
  rw [Mnemonic.toInstr_mnemonic]
  exact ⟨hrun, hpc, by rw [OpcodeMap.byte_of_lookup hk, memRead_natCast (by omega)]⟩

/-- JEQ on a register operand in range tests E and writes pc only (44_control.md R194). -/
theorem exec_jeq_registerByte (k : Fin 8) (s : State) : exec (.jeq (registerByte k)) s =
    .next (s.setPc (if s.flags.e then (s.x k).toNat else s.pc + 2)) := by
  rw [exec_eq_next, execPhase_jeq]
  cases he : s.flags.e with
  | true => exact .inl (.inl ⟨rfl, k, registerByte_toNat k, rfl⟩)
  | false => exact .inl (.inr ⟨rfl, rfl⟩)

/-- JNE on a register operand in range tests E and writes pc only (44_control.md R195). -/
theorem exec_jne_registerByte (k : Fin 8) (s : State) : exec (.jne (registerByte k)) s =
    .next (s.setPc (if s.flags.e then s.pc + 2 else (s.x k).toNat)) := by
  rw [exec_eq_next, execPhase_jne]
  cases he : s.flags.e with
  | true => exact .inl (.inr ⟨rfl, rfl⟩)
  | false => exact .inl (.inl ⟨rfl, k, registerByte_toNat k, rfl⟩)

/-- Settles O31: only CMP's execute phase writes the flags, so the jump after an ADD or MUL, faulted or not, tests
the E of before. -/
theorem flagsWrittenOnlyByCmp : Obligations.FlagsWrittenOnlyByCmp := by
  refine ⟨?step, ?instr, ?jump, rfl⟩
  case step =>
    intro m s t h hne
    obtain ⟨_, rfl⟩ | ⟨hrun, ⟨f, _, rfl⟩ | ⟨i, hi, hexec⟩⟩ := stepWith_cases h
    · exact absurd rfl hne
    · exact absurd (takeFault_flags f s) hne
    · obtain ⟨a, b, rfl⟩ := (exec_flags hexec).resolve_left hne
      exact atMnemonic_of_fetchDecode hrun hi
  case instr =>
    intro i s t hi h
    exact (exec_flags h).resolve_right fun ⟨a, b, hab⟩ => hi a b hab
  case jump =>
    intro a b s t k h
    have hflags : t.flags = s.flags := by
      obtain h | h := h <;> exact (exec_flags h).resolve_right (by simp)
    rw [← hflags]
    exact ⟨exec_jeq_registerByte k t, exec_jne_registerByte k t⟩

/-- CMP of two register operands in range completes with the flags of the comparison (42_alu.md R155). -/
theorem exec_cmp_registerByte (i j : Fin 8) (s : State) : exec (.cmp (registerByte i) (registerByte j)) s =
    .next ((s.setFlags (compareFlags (s.x i) (s.x j))).advance 3) :=
  exec_eq_next.2 (.inl (execPhase_cmp.2 ⟨i, j, registerByte_toNat i, registerByte_toNat j, rfl⟩))

theorem compareFlags_of_eq {va vb : Byte} (h : va.toNat = vb.toNat) : compareFlags va vb = ⟨true, false, false⟩ := by
  simp [compareFlags, h]

theorem compareFlags_of_lt {va vb : Byte} (h : va.toNat < vb.toNat) : compareFlags va vb = ⟨false, true, false⟩ := by
  simp only [compareFlags, gt_iff_lt, h, h.ne, h.not_gt, decide_true, decide_false]

theorem compareFlags_of_gt {va vb : Byte} (h : va.toNat > vb.toNat) : compareFlags va vb = ⟨false, false, true⟩ := by
  simp only [compareFlags, h, h.ne', h.not_gt, decide_true, decide_false]

/-- Settles O28: CMP's flags are `compareFlags` of the two values, which has one row for each order of them. -/
theorem cmpOutcomeTable : Obligations.CmpOutcomeTable := by
  rintro s i j va vb rfl rfl
  exact ⟨_, exec_cmp_registerByte i j s, compareFlags_of_eq, compareFlags_of_lt, compareFlags_of_gt⟩

end Sys2Proof.Machine
end

section
/-! PROOFS of 43_stack.md: the stack controller's two operations (R171, R172). -/

namespace Sys2Proof.Machine

@[simp] theorem pushed_pc (v : Byte) (s : State) : (pushed v s).pc = s.pc := rfl
@[simp] theorem pushed_sp (v : Byte) (s : State) : (pushed v s).sp = s.sp - 1 := rfl
@[simp] theorem pushed_flags (v : Byte) (s : State) : (pushed v s).flags = s.flags := rfl
@[simp] theorem pushed_status (v : Byte) (s : State) : (pushed v s).status = s.status := rfl
@[simp] theorem pushed_mem (v : Byte) (s : State) : (pushed v s).mem = s.mem.write (s.sp - 1) v := rfl
@[simp] theorem pushed_out (v : Byte) (s : State) : (pushed v s).out = s.out := rfl
@[simp] theorem x_pushed (v : Byte) (s : State) (k : Fin 8) : (pushed v s).x k = s.x k := rfl

/-- A push with room below sp succeeds; at sp = 256 there is room too (43_stack.md R171). -/
theorem push_eq_pushed (v : Byte) {s : State} (hroom : 1 ≤ s.sp) (hsp : s.sp ≤ 256) : push v s = .ok (pushed v s) :=
  push_eq_ok.2 ⟨hroom, hsp, rfl⟩

/-- The address of a push that has room is the sp it leaves. -/
theorem pushAddress_eq_pushed_sp (v : Byte) {s : State} (hroom : 1 ≤ s.sp) : pushAddress s = (pushed v s).sp := by
  rw [pushAddress, pushed_sp]
  omega

/-- The pushed value is the byte at the new sp. -/
theorem memRead_sp_pushed (v : Byte) {s : State} (hwf : s.mem.wf = true) (hsp : s.sp ≤ 256) :
    memRead (pushed v s).sp (pushed v s) = .ok v := by
  have hnew : (pushed v s).sp ≤ 255 := by rw [pushed_sp]; omega
  rw [memRead_natCast hnew, pushed_mem, pushed_sp, Memory.read_write_self hwf]

/-- A state whose memory is the other's with one cell written reads as the other at every other integer address, in
[0,255] or not (20_memory.md R52). -/
theorem SameMemoryExcept.of_mem_eq_write {s t : State} {a : Nat} {v : Byte} (h : t.mem = s.mem.write a v) :
    SameMemoryExcept a s t := by
  intro b hb
  refine ite_congr rfl (fun hrange => ?_) fun _ => rfl
  have hcell : a ≠ b.toNat := by omega
  rw [h, Memory.read_write_ne v hcell]

theorem sameMemoryExcept_pushed (v : Byte) {s : State} (hroom : 1 ≤ s.sp) :
    SameMemoryExcept (pushAddress s) s (pushed v s) := by
  rw [pushAddress_eq_pushed_sp v hroom]
  exact .of_mem_eq_write (pushed_mem v s)

/-- Settles O33: with room the push leaves `pushed`, at 256 with the new sp 255; at 0 the write faults and fault
entry keeps sp. -/
theorem pushOperation : Obligations.PushOperation := by
  intro v s hwf hsp
  refine ⟨fun hroom => ?room, fun htop => ?top, fun hzero => ?zero⟩
  case room =>
    exact ⟨pushed v s, push_eq_pushed v hroom hsp, (pushAddress_eq_pushed_sp v hroom).symm, memRead_sp_pushed v hwf hsp,
      sameMemoryExcept_pushed v hroom, x_pushed v s, pushed_pc .., pushed_flags .., pushed_status .., pushed_out ..⟩
  case top =>
    have hnew : (pushed v s).sp = 255 := by rw [pushed_sp, htop]
    have hread := memRead_sp_pushed v hwf hsp
    rw [hnew] at hread
    exact ⟨pushed v s, push_eq_pushed v (by omega) hsp, hread, hnew⟩
  case zero =>
    have haddr : -1 = pushAddress s := by rw [pushAddress]; omega
    have hfault : push v s = .error (.addressOutOfRange (-1)) :=
      push_eq_error.2 ⟨.inl hzero, congrArg Fault.addressOutOfRange haddr⟩
    refine ⟨hfault, takeFault (.addressOutOfRange (-1)) s, ?_, takeFault_sp ..⟩
    rw [hfault, commit_error]

/-- A pop with sp at an address of memory answers the byte there and changes only sp (43_stack.md R172). -/
theorem pop_eq_read {s : State} (hsp : s.sp ≤ 255) : pop s = .ok (s.mem.read s.sp, s.setSp (s.sp + 1)) :=
  pop_eq_ok.2 ⟨hsp, rfl⟩

/-- Settles O34: up to 255 the pop reads the byte at sp and writes sp alone; at 256 the read faults. -/
theorem popOperation : Obligations.PopOperation := by
  intro s
  refine ⟨fun hsp => ?inside, fun hlast => ?last, fun hend => ?past⟩
  case inside =>
    exact ⟨_, _, pop_eq_read hsp, memRead_natCast hsp s, State.setSp_sp .., .of_mem_eq (State.setSp_mem ..),
      State.x_setSp s _, State.setSp_pc .., State.setSp_flags .., State.setSp_status .., State.setSp_out ..⟩
  case last =>
    have hread := memRead_natCast hlast.le s
    rw [hlast] at hread
    exact ⟨_, _, pop_eq_read hlast.le, by rw [hlast]; exact hread, by rw [State.setSp_sp, hlast]⟩
  case past =>
    exact pop_eq_error.2 ⟨by omega, congrArg Fault.addressOutOfRange (by omega)⟩

end Sys2Proof.Machine
end

section
/-! PROOFS of 60_exceptions.md: when RegisterOutOfRange is raised (R222) and how InvalidOpcode stops the engine
(R224). -/

namespace Sys2Proof.Machine

/-- A Faulted engine keeps its state, whatever the budget of the run (60_exceptions.md R228). -/
theorem runWith_takeFault (m : OpcodeMap) (f : Fault) (s : State) (fuel : Nat) :
    runWith m fuel (takeFault f s) = .next (takeFault f s) :=
  runWith_of_not_running (by simp [State.isRunning]) fuel

/-- Settles O14: decode raises the fault, and a run from the state of fault entry takes no step. -/
theorem invalidOpcodeHaltsTheEngine : Obligations.InvalidOpcodeHaltsTheEngine := by
  intro m s op hrun hpc hread hop
  have hfault := fetchDecode_invalidOpcode hpc hread hop
  exact ⟨takeFault (.invalidOpcode op) s, stepWith_of_error hrun hfault, takeFault_status .., takeFault_pc ..,
    runWith_takeFault m _ s⟩

/-- On a Running engine an instruction ends Faulted exactly by a fault of its own execute phase, recorded with pc. -/
theorem exec_faulted_iff {i : Instr} {s : State} (hrun : s.status = .running) {f : Fault} {p : Nat} :
    (∃ t, exec i s = .next t ∧ t.status = .faulted ⟨f, p⟩) ↔ execPhase i s = .error f ∧ p = s.pc := by
  constructor
  · rintro ⟨t, hexec, ht⟩
    obtain hok | ⟨g, hg, rfl⟩ := exec_eq_next.1 hexec
    · obtain hsame | ⟨_, rfl⟩ := execPhase_status hok
      · simp [hsame, hrun] at ht
      · simp at ht
    · obtain ⟨rfl, rfl⟩ : g = f ∧ s.pc = p := by simpa using ht
      exact ⟨hg, rfl⟩
  · rintro ⟨hf, rfl⟩
    exact ⟨takeFault f s, exec_eq_next.2 (.inr ⟨f, hf, rfl⟩), takeFault_status ..⟩

/-- The first operand byte above 7 among those an instruction uses as register indices, when the flag E is `e`. -/
def firstBadOperand (i : Instr) (e : Bool) : Option Byte :=
  (usedRegisterOperands i e).find? fun u => decide (7 < u.toNat)

/-- Some used operand byte is above 7 exactly when there is a first one. -/
theorem exists_firstBadOperand_iff {i : Instr} {e : Bool} :
    (∃ v, firstBadOperand i e = some v) ↔ ∃ v ∈ usedRegisterOperands i e, 7 < v.toNat := by
  simp only [firstBadOperand, ← Option.isSome_iff_exists, List.find?_isSome, decide_eq_true_eq]

/-- The first used operand byte above 7 is a used one above 7. -/
theorem mem_used_of_firstBadOperand {i : Instr} {e : Bool} {v : Byte} (h : firstBadOperand i e = some v) :
    v ∈ usedRegisterOperands i e ∧ 7 < v.toNat :=
  ⟨List.mem_of_find?_eq_some h, by simpa using List.find?_some h⟩

/-- The execute phase raises RegisterOutOfRange exactly with the first used operand byte above 7
(40_cycle.md R113): the stack faults come after it and are of another cause, and a jump not taken uses none. -/
theorem execPhase_registerOutOfRange_iff {i : Instr} {s : State} {v : Byte} :
    execPhase i s = .error (.registerOutOfRange v) ↔ firstBadOperand i s.flags.e = some v := by
  have hcomm (n : Byte) : v = n ↔ n = v := eq_comm
  unfold firstBadOperand usedRegisterOperands
  cases i with
  | hlt => simp [execPhase_hlt_error]
  | ret => simp [execPhase_ret_error]
  | ldi n _ => simp [execPhase_ldi_error, hcomm]
  | prn n => simp [execPhase_prn_error, hcomm]
  | push n => simp [execPhase_push_error, hcomm]
  | pop n => simp [execPhase_pop_error, hcomm]
  | call n => simp [execPhase_call_error, hcomm]
  | jmp n => simp [execPhase_jmp_error, hcomm]
  | add a b => simp [execPhase_add_error, hcomm]
  | mul a b => simp [execPhase_mul_error, hcomm]
  | cmp a b => simp [execPhase_cmp_error, hcomm]
  | jeq n => cases he : s.flags.e <;> simp [execPhase_jeq_error, he, hcomm]
  | jne n => cases he : s.flags.e <;> simp [execPhase_jne_error, he, hcomm]

/-- Settles O48: on a Running engine the recorded byte is the one the execute phase raises, the first used operand
byte above 7. -/
theorem registerOutOfRangeExactlyForUsedOperands : Obligations.RegisterOutOfRangeExactlyForUsedOperands := by
  intro i s hrun
  constructor
  · simp only [exec_faulted_iff hrun, execPhase_registerOutOfRange_iff, and_true, exists_firstBadOperand_iff]
  · intro v t p hexec ht
    obtain ⟨hraised, _⟩ := (exec_faulted_iff hrun).1 ⟨t, hexec, ht⟩
    exact mem_used_of_firstBadOperand (execPhase_registerOutOfRange_iff.1 hraised)

end Sys2Proof.Machine
end

section
/-! PROOFS of 70_reset_and_hazards.md: loading the program image (R263). -/

namespace Sys2Proof.Machine

/-- Loading leaves every cell outside the loaded range as it was. -/
theorem Memory.read_load_outside {b : Nat} : ∀ (p : List Byte) (m : Memory) {a : Nat},
    b < a ∨ a + p.length ≤ b → (m.load a p).read b = m.read b
  | [], _, _, _ => rfl
  | v :: vs, m, a, h => by
    simp only [List.length_cons] at h
    calc ((m.write a v).load (a + 1) vs).read b
      _ = (m.write a v).read b := Memory.read_load_outside vs _ (by omega)
      _ = m.read b := Memory.read_write_ne v (by omega) m

/-- Loading puts the i-th byte at the i-th cell of the loaded range. -/
theorem Memory.read_load_getElem : ∀ (p : List Byte) {m : Memory} {a : Nat}, m.wf = true →
    a + p.length ≤ Config.memSize → ∀ i (hi : i < p.length), (m.load a p).read (a + i) = p[i]
  | v :: vs, m, a, hm, _, 0, _ => by
    calc ((m.write a v).load (a + 1) vs).read a
      _ = (m.write a v).read a := Memory.read_load_outside vs _ (by omega)
      _ = v := Memory.read_write_self hm a v
  | v :: vs, m, a, hm, hfit, i + 1, hi => by
    simp only [List.length_cons] at hfit hi
    have hwf : (m.write a v).wf = true := Memory.wf_write hm (by omega) v
    calc ((m.write a v).load (a + 1) vs).read (a + (i + 1))
      _ = ((m.write a v).load (a + 1) vs).read (a + 1 + i) := by rw [Nat.add_comm i, Nat.add_assoc]
      _ = vs[i] := Memory.read_load_getElem vs hwf (by omega) i (by omega)

/-- A load is taken exactly on the reset engine, for at most 256 values in [0,255] (R264), and sets memory only. -/
theorem loadBytes_eq_ok {p : List Int} {s t : State} :
    loadBytes p s = .ok t ↔ s = State.reset ∧ p.length ≤ Config.memSize ∧ (∀ v ∈ p, 0 ≤ v ∧ v ≤ 255) ∧
      s.setMem (s.mem.load Config.loadBase (p.map (BitVec.ofInt 8))) = t := by
  have hvalues : (p.find? fun v => decide (v < 0 ∨ 255 < v)) = none ↔ ∀ v ∈ p, 0 ≤ v ∧ v ≤ 255 := by
    simp
  rw [← hvalues]
  unfold loadBytes
  split
  · next hreset => simp [hreset]
  · next hreset =>
    split
    · next hlong => simp [Nat.not_le.2 hlong]
    · next hfit =>
      split
      · next hbad => simp only [hbad, reduceCtorEq, false_and, and_false]
      · next hgood => simp only [hgood, not_not.1 hreset, Nat.not_lt.1 hfit, Except.ok.injEq, true_and]

/-- The low byte of a byte's unsigned value is that byte. -/
theorem map_ofInt_map_toNat (p : List Byte) : (p.map fun v => (v.toNat : Int)).map (BitVec.ofInt 8) = p := by
  simp [Function.comp_def]

/-- An image of bytes that fits is taken, and memory is then the image loaded into zeroed memory from address 0. -/
theorem loadBytes_image {p : List Byte} (hfit : p.length ≤ 256) :
    loadBytes (p.map fun v => (v.toNat : Int)) State.reset = .ok (State.reset.setMem (Memory.load [] 0 p)) := by
  have hbytes : ∀ v ∈ p.map (fun v => (v.toNat : Int)), 0 ≤ v ∧ v ≤ 255 := by
    simp only [List.forall_mem_map]
    intro v _
    have := v.isLt
    omega
  refine loadBytes_eq_ok.2 ⟨rfl, by simpa using hfit, hbytes, ?_⟩
  rw [map_ofInt_map_toNat]
  rfl

/-- Settles O54: the state after the load is the reset state with the image loaded into its zeroed memory, whose cells
inside the image read its bytes and past it still read 0. -/
theorem loadBytesPlacesImage : Obligations.LoadBytesPlacesImage := by
  intro p hfit
  refine ⟨_, loadBytes_image hfit, ?image, ?tail, rfl⟩
  case image =>
    intro i hi
    have hcell : (Memory.load [] 0 p).read i = p[i] := by
      simpa using Memory.read_load_getElem (a := 0) p (m := []) rfl (by simpa using hfit) i hi
    rw [memRead_natCast (by omega), State.setMem_mem, hcell]
  case tail =>
    intro i hpast hi
    have hcell : (Memory.load [] 0 p).read i = 0 := Memory.read_load_outside p [] (.inr (by omega))
    rw [memRead_natCast hi, State.setMem_mem, hcell]

end Sys2Proof.Machine
end

section
/-! LAWS of the execute phase and of the step: everything an instruction can complete with or raise, said once
(40_cycle.md R113 to R118); the frames of later sections are read off these two relations. -/

namespace Sys2Proof.Machine

/-- Instruction `i` completes in `s` and leaves `t`: one constructor per instruction, a conditional jump taken or
not. -/
inductive Completes (s : State) : Instr → State → Prop where
  | hlt : Completes s .hlt (s.setStatus .halted)
  | ldi (k : Fin 8) (imm : Byte) : Completes s (.ldi (registerByte k) imm) ((s.setX k imm).advance 3)
  | prn (k : Fin 8) : Completes s (.prn (registerByte k)) ((s.emit (s.x k)).advance 2)
  | add (i j : Fin 8) : Completes s (.add (registerByte i) (registerByte j))
      ((s.setX i (BitVec.ofNat 8 ((s.x i).toNat + (s.x j).toNat))).advance 3)
  | mul (i j : Fin 8) : Completes s (.mul (registerByte i) (registerByte j))
      ((s.setX i (BitVec.ofNat 8 ((s.x i).toNat * (s.x j).toNat))).advance 3)
  | cmp (i j : Fin 8) : Completes s (.cmp (registerByte i) (registerByte j))
      ((s.setFlags (compareFlags (s.x i) (s.x j))).advance 3)
  | push (k : Fin 8) (hroom : 1 ≤ s.sp) (hsp : s.sp ≤ 256) :
      Completes s (.push (registerByte k)) ((pushed (s.x k) s).advance 2)
  | pop (k : Fin 8) (hsp : s.sp ≤ 255) :
      Completes s (.pop (registerByte k)) (((s.setSp (s.sp + 1)).setX k (s.mem.read s.sp)).advance 2)
  | call (k : Fin 8) (hroom : 1 ≤ s.sp) (hsp : s.sp ≤ 256) :
      Completes s (.call (registerByte k)) ((pushed (returnAddress s) s).setPc (s.x k).toNat)
  | ret (hsp : s.sp ≤ 255) : Completes s .ret ((s.setSp (s.sp + 1)).setPc (s.mem.read s.sp).toNat)
  | jmp (k : Fin 8) : Completes s (.jmp (registerByte k)) (s.setPc (s.x k).toNat)
  | jeqTaken (k : Fin 8) (he : s.flags.e = true) :
      Completes s (.jeq (registerByte k)) (s.setPc (s.x k).toNat)
  | jeqNotTaken (n : Byte) (he : s.flags.e = false) : Completes s (.jeq n) (s.advance 2)
  | jneTaken (k : Fin 8) (he : s.flags.e = false) :
      Completes s (.jne (registerByte k)) (s.setPc (s.x k).toNat)
  | jneNotTaken (n : Byte) (he : s.flags.e = true) : Completes s (.jne n) (s.advance 2)

theorem execPhase_eq_ok {i : Instr} {s t : State} : execPhase i s = .ok t ↔ Completes s i t := by
  constructor
  · intro h
    cases i with
    | hlt => obtain rfl := execPhase_hlt.1 h; exact .hlt
    | ldi n imm => obtain ⟨k, hn, rfl⟩ := execPhase_ldi.1 h; rw [eq_registerByte hn]; exact .ldi k imm
    | prn n => obtain ⟨k, hn, rfl⟩ := execPhase_prn.1 h; rw [eq_registerByte hn]; exact .prn k
    | add a b =>
      obtain ⟨i, j, ha, hb, rfl⟩ := execPhase_add.1 h
      rw [eq_registerByte ha, eq_registerByte hb]; exact .add i j
    | mul a b =>
      obtain ⟨i, j, ha, hb, rfl⟩ := execPhase_mul.1 h
      rw [eq_registerByte ha, eq_registerByte hb]; exact .mul i j
    | cmp a b =>
      obtain ⟨i, j, ha, hb, rfl⟩ := execPhase_cmp.1 h
      rw [eq_registerByte ha, eq_registerByte hb]; exact .cmp i j
    | push n =>
      obtain ⟨k, hn, hroom, hsp, rfl⟩ := execPhase_push.1 h
      rw [eq_registerByte hn]; exact .push k hroom hsp
    | pop n => obtain ⟨k, hn, hsp, rfl⟩ := execPhase_pop.1 h; rw [eq_registerByte hn]; exact .pop k hsp
    | call n =>
      obtain ⟨k, hn, hroom, hsp, rfl⟩ := execPhase_call.1 h
      rw [eq_registerByte hn]; exact .call k hroom hsp
    | ret => obtain ⟨hsp, rfl⟩ := execPhase_ret.1 h; exact .ret hsp
    | jmp n => obtain ⟨k, hn, rfl⟩ := execPhase_jmp.1 h; rw [eq_registerByte hn]; exact .jmp k
    | jeq n =>
      obtain ⟨he, k, hn, rfl⟩ | ⟨he, rfl⟩ := execPhase_jeq.1 h
      · rw [eq_registerByte hn]; exact .jeqTaken k he
      · exact .jeqNotTaken n he
    | jne n =>
      obtain ⟨he, k, hn, rfl⟩ | ⟨he, rfl⟩ := execPhase_jne.1 h
      · rw [eq_registerByte hn]; exact .jneTaken k he
      · exact .jneNotTaken n he
  · intro h
    cases h with
    | hlt => exact execPhase_hlt.2 rfl
    | ldi k imm => exact execPhase_ldi.2 ⟨k, registerByte_toNat k, rfl⟩
    | prn k => exact execPhase_prn.2 ⟨k, registerByte_toNat k, rfl⟩
    | add i j => exact execPhase_add.2 ⟨i, j, registerByte_toNat i, registerByte_toNat j, rfl⟩
    | mul i j => exact execPhase_mul.2 ⟨i, j, registerByte_toNat i, registerByte_toNat j, rfl⟩
    | cmp i j => exact execPhase_cmp.2 ⟨i, j, registerByte_toNat i, registerByte_toNat j, rfl⟩
    | push k hroom hsp => exact execPhase_push.2 ⟨k, registerByte_toNat k, hroom, hsp, rfl⟩
    | pop k hsp => exact execPhase_pop.2 ⟨k, registerByte_toNat k, hsp, rfl⟩
    | call k hroom hsp => exact execPhase_call.2 ⟨k, registerByte_toNat k, hroom, hsp, rfl⟩
    | ret hsp => exact execPhase_ret.2 ⟨hsp, rfl⟩
    | jmp k => exact execPhase_jmp.2 ⟨k, registerByte_toNat k, rfl⟩
    | jeqTaken k he => exact execPhase_jeq.2 (.inl ⟨he, k, registerByte_toNat k, rfl⟩)
    | jeqNotTaken n he => exact execPhase_jeq.2 (.inr ⟨he, rfl⟩)
    | jneTaken k he => exact execPhase_jne.2 (.inl ⟨he, k, registerByte_toNat k, rfl⟩)
    | jneNotTaken n he => exact execPhase_jne.2 (.inr ⟨he, rfl⟩)

/-- Instruction `i` raises `f` in `s`: its first bad operand byte, or, with its operand in range, the stack access
(60_exceptions.md R221, R222). -/
inductive Raises (s : State) : Instr → Fault → Prop where
  | operand {i : Instr} {v : Byte} (hv : firstBadOperand i s.flags.e = some v) : Raises s i (.registerOutOfRange v)
  | push (n : Byte) (hn : n.toNat ≤ 7) (hsp : s.sp = 0 ∨ 256 < s.sp) :
      Raises s (.push n) (.addressOutOfRange (pushAddress s))
  | pop (n : Byte) (hn : n.toNat ≤ 7) (hsp : 255 < s.sp) : Raises s (.pop n) (.addressOutOfRange s.sp)
  | call (n : Byte) (hn : n.toNat ≤ 7) (hsp : s.sp = 0 ∨ 256 < s.sp) :
      Raises s (.call n) (.addressOutOfRange (pushAddress s))
  | ret (hsp : 255 < s.sp) : Raises s .ret (.addressOutOfRange s.sp)

/-- A RegisterOutOfRange of the execute phase is one of its operands. -/
theorem Raises.of_registerOutOfRange {i : Instr} {s : State} {v : Byte}
    (h : execPhase i s = .error (.registerOutOfRange v)) : Raises s i (.registerOutOfRange v) :=
  .operand (execPhase_registerOutOfRange_iff.1 h)

theorem execPhase_eq_error {i : Instr} {s : State} {f : Fault} : execPhase i s = .error f ↔ Raises s i f := by
  constructor
  · intro h
    cases i with
    | hlt => exact absurd h execPhase_hlt_error
    | ldi n imm => obtain ⟨_, rfl⟩ := execPhase_ldi_error.1 h; exact .of_registerOutOfRange h
    | prn n => obtain ⟨_, rfl⟩ := execPhase_prn_error.1 h; exact .of_registerOutOfRange h
    | add a b => obtain ⟨_, rfl⟩ | ⟨_, _, rfl⟩ := execPhase_add_error.1 h <;> exact .of_registerOutOfRange h
    | mul a b => obtain ⟨_, rfl⟩ | ⟨_, _, rfl⟩ := execPhase_mul_error.1 h <;> exact .of_registerOutOfRange h
    | cmp a b => obtain ⟨_, rfl⟩ | ⟨_, _, rfl⟩ := execPhase_cmp_error.1 h <;> exact .of_registerOutOfRange h
    | push n =>
      obtain ⟨_, rfl⟩ | ⟨hn, hsp, rfl⟩ := execPhase_push_error.1 h
      · exact .of_registerOutOfRange h
      · exact .push n hn hsp
    | pop n =>
      obtain ⟨_, rfl⟩ | ⟨hn, hsp, rfl⟩ := execPhase_pop_error.1 h
      · exact .of_registerOutOfRange h
      · exact .pop n hn hsp
    | call n =>
      obtain ⟨_, rfl⟩ | ⟨hn, hsp, rfl⟩ := execPhase_call_error.1 h
      · exact .of_registerOutOfRange h
      · exact .call n hn hsp
    | ret => obtain ⟨hsp, rfl⟩ := execPhase_ret_error.1 h; exact .ret hsp
    | jmp n => obtain ⟨_, rfl⟩ := execPhase_jmp_error.1 h; exact .of_registerOutOfRange h
    | jeq n => obtain ⟨_, _, rfl⟩ := execPhase_jeq_error.1 h; exact .of_registerOutOfRange h
    | jne n => obtain ⟨_, _, rfl⟩ := execPhase_jne_error.1 h; exact .of_registerOutOfRange h
  · intro h
    cases h with
    | operand hv => exact execPhase_registerOutOfRange_iff.2 hv
    | push n hn hsp => exact execPhase_push_error.2 (.inr ⟨hn, hsp, rfl⟩)
    | pop n hn hsp => exact execPhase_pop_error.2 (.inr ⟨hn, hsp, rfl⟩)
    | call n hn hsp => exact execPhase_call_error.2 (.inr ⟨hn, hsp, rfl⟩)
    | ret hsp => exact execPhase_ret_error.2 ⟨hsp, rfl⟩

/-- What an instruction raises depends on E and sp only. -/
theorem Raises.of_same_e_sp {i : Instr} {s s' : State} {f : Fault} (h : Raises s i f)
    (he : s'.flags.e = s.flags.e) (hsp : s'.sp = s.sp) : Raises s' i f := by
  have haddr : pushAddress s' = pushAddress s := by rw [pushAddress, pushAddress, hsp]
  cases h with
  | operand hv => exact .operand (he ▸ hv)
  | push n hn hbad => rw [← haddr]; exact .push n hn (hsp ▸ hbad)
  | pop n hn hbad => rw [← hsp]; exact .pop n hn (hsp ▸ hbad)
  | call n hn hbad => rw [← haddr]; exact .call n hn (hsp ▸ hbad)
  | ret hbad => rw [← hsp]; exact .ret (hsp ▸ hbad)

/-- An instruction's answer: the state it completes with, or fault entry with the fault it raises. -/
theorem exec_eq_next_iff {i : Instr} {s t : State} :
    exec i s = .next t ↔ Completes s i t ∨ ∃ f, Raises s i f ∧ takeFault f s = t := by
  simp only [exec_eq_next, execPhase_eq_ok, execPhase_eq_error]

theorem Completes.exec_eq {i : Instr} {s t : State} (h : Completes s i t) : exec i s = .next t :=
  exec_eq_next_iff.2 (.inl h)

theorem Raises.exec_eq {i : Instr} {s : State} {f : Fault} (h : Raises s i f) : exec i s = .next (takeFault f s) :=
  exec_eq_next_iff.2 (.inr ⟨f, h, rfl⟩)

/-- An instruction has one answer. -/
theorem Completes.eq_of_exec {i : Instr} {s t u : State} (h : Completes s i t) (hu : exec i s = .next u) : u = t := by
  rw [h.exec_eq] at hu
  cases hu
  rfl

/-- The step raises `f`: in fetch or decode, or in the decoded instruction. -/
def StepRaises (m : OpcodeMap) (s : State) (f : Fault) : Prop :=
  fetchDecode m s = .error f ∨ ∃ i, fetchDecode m s = .ok i ∧ Raises s i f

/-- Inversion of the step of a Running engine: it takes the fault that a phase raises, or the decoded instruction
completes. -/
theorem stepWith_running_cases {m : OpcodeMap} {s t : State} (hrun : s.status = .running)
    (h : stepWith m s = .next t) :
    (∃ f, StepRaises m s f ∧ t = takeFault f s) ∨ ∃ i, fetchDecode m s = .ok i ∧ Completes s i t := by
  obtain ⟨hstop, _⟩ | ⟨_, ⟨f, hf, rfl⟩ | ⟨i, hi, hexec⟩⟩ := stepWith_cases h
  · exact absurd hrun hstop
  · exact .inl ⟨f, .inl hf, rfl⟩
  · obtain hdone | ⟨f, hf, rfl⟩ := exec_eq_next_iff.1 hexec
    · exact .inr ⟨i, hi, hdone⟩
    · exact .inl ⟨f, .inr ⟨i, hi, hf⟩, rfl⟩

/-- What a step can change: nothing but the status (a stopped engine, fault entry), or what the instruction at pc
changes when it completes. -/
theorem stepWith_frame {m : OpcodeMap} {s t : State} (h : stepWith m s = .next t) :
    (∃ v, t = s.setStatus v) ∨ ∃ i, AtMnemonic m s i.mnemonic ∧ Completes s i t := by
  by_cases hrun : s.status = .running
  · obtain ⟨f, _, rfl⟩ | ⟨i, hi, hdone⟩ := stepWith_running_cases hrun h
    · exact .inl ⟨_, rfl⟩
    · exact .inr ⟨i, atMnemonic_of_fetchDecode hrun hi, hdone⟩
  · rw [stepWith_of_not_running hrun] at h
    cases h
    exact .inl ⟨s.status, rfl⟩

theorem AtMnemonic.or {m : OpcodeMap} {s : State} {k j j' : Mnemonic} (h : AtMnemonic m s k) (hk : k = j ∨ k = j') :
    AtMnemonic m s j ∨ AtMnemonic m s j' := by
  obtain rfl | rfl := hk
  · exact .inl h
  · exact .inr h

/-! ### The frame of each piece of state -/

/-- HLT is the one instruction that writes the status when it completes (41_data_io.md R130). -/
theorem Completes.status {i : Instr} {s t : State} (h : Completes s i t) :
    t.status = s.status ∨ (i = .hlt ∧ t = s.setStatus .halted) :=
  execPhase_status (execPhase_eq_ok.2 h)

/-- Only the four stack instructions write sp, PUSH and CALL one down, POP and RET one up (10_state.md R28). -/
theorem Completes.sp {i : Instr} {s t : State} (h : Completes s i t) :
    t.sp = s.sp ∨ ((i.mnemonic = .push ∨ i.mnemonic = .call) ∧ 1 ≤ s.sp ∧ t.sp = s.sp - 1) ∨
      ((i.mnemonic = .pop ∨ i.mnemonic = .ret) ∧ s.sp ≤ 255 ∧ t.sp = s.sp + 1) := by
  cases h with
  | push k hroom _ => exact .inr (.inl ⟨.inl rfl, hroom, rfl⟩)
  | call k hroom _ => exact .inr (.inl ⟨.inr rfl, hroom, rfl⟩)
  | pop k hsp => exact .inr (.inr ⟨.inl rfl, hsp, rfl⟩)
  | ret hsp => exact .inr (.inr ⟨.inr rfl, hsp, rfl⟩)
  | _ => exact .inl rfl

/-- Only PUSH and CALL write memory, one cell, at sp − 1 (20_memory.md R59). -/
theorem Completes.mem {i : Instr} {s t : State} (h : Completes s i t) :
    t.mem = s.mem ∨ ((i.mnemonic = .push ∨ i.mnemonic = .call) ∧ 1 ≤ s.sp ∧ s.sp ≤ 256 ∧
      ∃ v, t.mem = s.mem.write (s.sp - 1) v) := by
  cases h with
  | push k hroom hsp => exact .inr ⟨.inl rfl, hroom, hsp, _, rfl⟩
  | call k hroom hsp => exact .inr ⟨.inr rfl, hroom, hsp, _, rfl⟩
  | _ => exact .inl rfl

/-- Only PRN writes the output, by appending one register's value (10_state.md R35). -/
theorem Completes.out {i : Instr} {s t : State} (h : Completes s i t) :
    t.out = s.out ∨ (i.mnemonic = .prn ∧ ∃ k : Fin 8, t.out = s.out ++ [s.x k]) := by
  cases h with
  | prn k => exact .inr ⟨rfl, k, rfl⟩
  | _ => exact .inl rfl

end Sys2Proof.Machine
end

section
/-! PROOFS of 40_cycle.md: the step's one outcome, fetch past the end, the stopped engine, and runs. -/

namespace Sys2Proof.Machine

theorem exec_total (i : Instr) (s : State) : ∃ t, exec i s = .next t := by
  rw [exec_eq_commit]
  cases execPhase i s with
  | ok t => exact ⟨t, commit_ok s t⟩
  | error f => exact ⟨takeFault f s, commit_error s f⟩

theorem stepWith_total (m : OpcodeMap) (s : State) : ∃ t, stepWith m s = .next t := by
  by_cases hrun : s.status = .running
  · cases hf : fetchDecode m s with
    | ok i => rw [stepWith_of_ok hrun hf]; exact exec_total i s
    | error f => exact ⟨_, stepWith_of_error hrun hf⟩
  · exact ⟨s, stepWith_of_not_running hrun⟩

/-- Settles O5: a commit answers a next state for either result of a phase. -/
theorem everyStepAnswersNext : Obligations.EveryStepAnswersNext :=
  ⟨stepWith_total, exec_total⟩

/-- Three reads that succeed are the fetch window, and decode sees these bytes. -/
theorem fetchDecode_of_decode {m : OpcodeMap} {s : State} {op a b : Byte} {i : Instr} (hop : memRead s.pc s = .ok op)
    (ha : memRead (s.pc + 1) s = .ok a) (hb : memRead (s.pc + 2) s = .ok b) (hi : decode m [op, a, b] = .ok i) :
    fetchDecode m s = .ok i := by
  have hwindow : fetch s = .ok ⟨op, a, b⟩ := by simp [fetch, hop, ha, hb]
  rw [decode] at hi
  rw [fetchDecode, hwindow, Except.ok_bind, hi]
  rfl

/-- Settles O6: the window read at pc is the one that is decoded. -/
theorem stepRunsDecodedInstruction : Obligations.StepRunsDecodedInstruction :=
  ⟨fun _ _ _ _ _ _ hrun hop ha hb hi => stepWith_of_ok hrun (fetchDecode_of_decode hop ha hb hi), fun _ => rfl⟩

/-- Settles O7: both `stepWith` and `runWith` test the status before anything else. -/
theorem stoppedEngineStaysAsItIs : Obligations.StoppedEngineStaysAsItIs := by
  intro m s hstop
  exact ⟨stepWith_of_not_running hstop, runWith_of_not_running (by simp [State.isRunning, hstop])⟩

/-- Settles O8: fetch faults before any byte is decoded, at 256 from pc 254 and 255, else at pc. -/
theorem fetchPastTheEndFaults : Obligations.FetchPastTheEndFaults := by
  intro m s hrun hpc
  have hfault := (fetchDecode_eq_error (m := m) (s := s)).2 (.inl ⟨by omega, rfl⟩)
  have hstep := stepWith_of_error hrun hfault
  constructor
  · intro hnear
    have haddr : (if s.pc ≤ 255 then 256 else (s.pc : Int)) = 256 := by split <;> omega
    rw [hstep, haddr]
    rfl
  · intro hfar
    rw [hstep, if_neg (by omega)]
    rfl

/-- What every step keeps, a run of any length keeps. -/
theorem runWith_keeps {m : OpcodeMap} {P : State → Prop} (hstep : ∀ s t, P s → stepWith m s = .next t → P t) :
    ∀ {fuel : Nat} {s t : State}, P s → runWith m fuel s = .next t → P t := by
  intro fuel
  induction fuel with
  | zero => intro s t hs h; cases h; exact hs
  | succ n ih =>
    intro s t hs h
    cases hrun : s.isRunning with
    | true =>
      obtain ⟨u, hu⟩ := stepWith_total m s
      rw [runWith_succ hrun hu] at h
      exact ih (hstep s u hs hu) h
    | false =>
      rw [runWith_of_not_running hrun] at h
      cases h
      exact hs

/-- A run that has ended stays in its end state under every larger budget. -/
theorem runWith_of_ended {m : OpcodeMap} {t : State} (hend : t.ended = true) :
    ∀ {n : Nat} {s : State}, runWith m n s = .next t → ∀ {fuel : Nat}, n ≤ fuel → runWith m fuel s = .next t := by
  intro n
  induction n with
  | zero =>
    intro s h fuel _
    cases h
    exact runWith_of_not_running (by simpa [State.ended] using hend) fuel
  | succ n ih =>
    intro s h fuel hle
    cases hrun : s.isRunning with
    | true =>
      obtain ⟨u, hu⟩ := stepWith_total m s
      obtain ⟨fuel, rfl⟩ : ∃ k, fuel = k + 1 := ⟨fuel - 1, by omega⟩
      rw [runWith_succ hrun hu] at h ⊢
      exact ih h (by omega)
    | false => rwa [runWith_of_not_running hrun] at h ⊢

/-- Settles O58: two ends of one run are both its state under the larger of the two budgets. -/
theorem runEndsInOneState : Obligations.RunEndsInOneState := by
  rintro m s t ⟨n, hn, ht⟩
  refine ⟨?unique, n, fun fuel hle => runWith_of_ended ht hn hle⟩
  case unique =>
    rintro u ⟨k, hk, hu⟩
    have htop : runWith m (max n k) s = .next t := runWith_of_ended ht hn (le_max_left n k)
    rw [runWith_of_ended hu hk (le_max_right n k)] at htop
    cases htop
    rfl

/-- The host's run repeats the no-op of a stopped engine. -/
theorem coreRun_of_not_running {s : State} (hstop : s.status ≠ .running) (fuel : Nat) :
    core.run fuel s = .next s := by
  induction fuel with
  | zero => rfl
  | succ n ih => exact (coreRun_succ core n s s (stepWith_of_not_running hstop)).trans ih

/-- Settles O57: on a Running engine both runs take the same step; on a stopped one the model's stops and the host's
repeats the no-op. -/
theorem runIsRepeatedStep : Obligations.RunIsRepeatedStep := by
  intro fuel
  induction fuel with
  | zero => intro s; rfl
  | succ n ih =>
    intro s
    by_cases hrun : s.status = .running
    · obtain ⟨t, ht⟩ := stepWith_total defaultOpcodeMap s
      have hmodel : run (n + 1) s = run n t := runWith_succ (s.isRunning_iff.2 hrun) ht n
      have hhost : core.run (n + 1) s = core.run n t := coreRun_succ core n s t ht
      exact hmodel.trans ((ih t).trans hhost.symm)
    · rw [coreRun_of_not_running hrun]
      exact runWith_of_not_running (by simp [State.isRunning, hrun]) (n + 1)

end Sys2Proof.Machine
end

section
/-! PROOFS of 10_state.md sections 2 to 4 and 60_exceptions.md: the invariant, kept by every step and run. -/

namespace Sys2Proof.Machine

/-- At most one of CMP's flags is set (42_alu.md R157). -/
theorem compareFlags_exclusive (va vb : Byte) : (compareFlags va vb).exclusive = true := by
  rcases Nat.lt_trichotomy va.toNat vb.toNat with hlt | heq | hgt
  · rw [compareFlags_of_lt hlt]; rfl
  · rw [compareFlags_of_eq heq]; rfl
  · rw [compareFlags_of_gt hgt]; rfl

theorem Completes.flags_exclusive {i : Instr} {s t : State} (h : Completes s i t) (hs : s.flags.exclusive = true) :
    t.flags.exclusive = true := by
  cases h with
  | cmp i j => exact compareFlags_exclusive ..
  | _ => exact hs

theorem Completes.mem_wf {i : Instr} {s t : State} (h : Completes s i t) (hs : s.mem.wf = true) : t.mem.wf = true := by
  obtain hsame | ⟨_, _, hsp, v, hwrite⟩ := h.mem
  · rw [hsame]; exact hs
  · rw [hwrite]; exact Memory.wf_write hs (Nat.lt_of_lt_of_le (by omega) hsp) v

theorem Completes.sp_le {i : Instr} {s t : State} (h : Completes s i t) (hs : s.sp ≤ 256) : t.sp ≤ 256 := by
  obtain hsame | ⟨_, _, hdown⟩ | ⟨_, _, hup⟩ := h.sp <;> omega

/-- An instruction advances pc by at most its length, or sets it to a byte (40_cycle.md R116). -/
theorem Completes.pc_le {i : Instr} {s t : State} (h : Completes s i t) : t.pc ≤ s.pc + 3 ∨ t.pc ≤ 255 := by
  have hbyte (v : Byte) : v.toNat ≤ 255 := Nat.le_of_lt_succ v.isLt
  cases h with
  | call k | ret | jmp k | jeqTaken k | jneTaken k => exact .inr (hbyte _)
  | _ => exact .inl (by simp)

/-- The mnemonic HLT makes HLT only. -/
theorem mnemonic_eq_hlt_of_toInstr {k : Mnemonic} {a b : Byte} (h : k.toInstr a b = .hlt) : k = .hlt := by
  have := congrArg Instr.mnemonic h
  rwa [Mnemonic.toInstr_mnemonic] at this

/-- After an instruction completes on a Running engine the status fits: still Running, or Halted at the HLT. -/
theorem Completes.statusFits {m : OpcodeMap} {i : Instr} {s t : State} (h : Completes s i t)
    (hrun : s.status = .running) (hi : fetchDecode m s = .ok i) : t.statusFits m = true := by
  obtain hsame | ⟨rfl, rfl⟩ := h.status
  · simp [State.statusFits, hsame, hrun]
  · obtain ⟨hpc, k, hk, hhlt⟩ := fetchDecode_eq_ok.1 hi
    rw [mnemonic_eq_hlt_of_toInstr hhlt.symm] at hk
    simp [State.statusFits, hpc, hk]

/-- The operand bytes that a decoded instruction checks are the two of its fetch window. -/
theorem mem_used_toInstr {k : Mnemonic} {a b v : Byte} {e : Bool}
    (h : v ∈ usedRegisterOperands (k.toInstr a b) e) : v = a ∨ v = b := by
  cases k with
  | hlt | ret => cases h
  | ldi | prn | push | pop | call | jmp => exact .inl (List.mem_singleton.1 h)
  | add | mul | cmp => simpa [usedRegisterOperands, Mnemonic.toInstr] using h
  | jeq =>
    cases e with
    | true => exact .inl (List.mem_singleton.1 h)
    | false => cases h
  | jne =>
    cases e with
    | true => cases h
    | false => exact .inl (List.mem_singleton.1 h)

theorem explainedBy_pushAddress (m : OpcodeMap) {s : State} (hle : s.sp ≤ 256) (hsp : s.sp = 0 ∨ 256 < s.sp) :
    (Fault.addressOutOfRange (pushAddress s)).explainedBy m s = true := by
  have hzero : s.sp = 0 := by omega
  simp [Fault.explainedBy, pushAddress, hzero]

theorem explainedBy_pop (m : OpcodeMap) {s : State} (hle : s.sp ≤ 256) (hsp : 255 < s.sp) :
    (Fault.addressOutOfRange s.sp).explainedBy m s = true := by
  have htop : s.sp = 256 := by omega
  simp [Fault.explainedBy, htop]

theorem explainedBy_fetch {m : OpcodeMap} {s : State} {f : Fault} (hle : s.pc ≤ 256)
    (hf : fetchDecode m s = .error f) : f.explainedBy m s = true := by
  obtain ⟨hpc, rfl⟩ | ⟨hpc, hnone, rfl⟩ := fetchDecode_eq_error.1 hf
  · have haddr : (if s.pc ≤ 255 then 256 else (s.pc : Int)) = 256 := by split <;> omega
    have hnear : 254 ≤ s.pc := by omega
    simp [Fault.explainedBy, haddr, hnear]
  · simp [Fault.explainedBy, hpc, hnone]

/-- Whatever a step raises while pc and sp are in [0,256] is explained by the state (60_exceptions.md R221 to
R224). -/
theorem StepRaises.explainedBy {m : OpcodeMap} {s : State} {f : Fault} (h : StepRaises m s f) (hpc : s.pc ≤ 256)
    (hsp : s.sp ≤ 256) : f.explainedBy m s = true := by
  obtain hf | ⟨i, hi, hf⟩ := h
  · exact explainedBy_fetch hpc hf
  · cases hf with
    | operand hv =>
      obtain ⟨hwindow, k, _, rfl⟩ := fetchDecode_eq_ok.1 hi
      obtain ⟨hused, hbad⟩ := mem_used_of_firstBadOperand hv
      have hbyte := (mem_used_toInstr hused).imp Eq.symm Eq.symm
      simpa [Fault.explainedBy, hwindow, hbad] using hbyte
    | push n _ hbad | call n _ hbad => exact explainedBy_pushAddress m hsp hbad
    | pop n _ hbad | ret hbad => exact explainedBy_pop m hsp hbad

/-- Fault entry fits when the state explains the cause: the record is made from this state and only the status
changes (60_exceptions.md R226). -/
theorem statusFits_takeFault {m : OpcodeMap} {s : State} {f : Fault} (h : f.explainedBy m s = true) :
    (takeFault f s).statusFits m = true := by
  have hsame : f.explainedBy m (takeFault f s) = f.explainedBy m s := by cases f <;> rfl
  simp [State.statusFits, hsame, h]

theorem stepWith_keeps_inv {m : OpcodeMap} {s t : State} (hs : Inv m s) (h : stepWith m s = .next t) : Inv m t := by
  by_cases hrun : s.status = .running
  · obtain ⟨hwf, hpc, hsp, hflags, _⟩ := hs
    obtain ⟨f, hf, rfl⟩ | ⟨i, hi, hdone⟩ := stepWith_running_cases hrun h
    · exact ⟨hwf, hpc, hsp, hflags, statusFits_takeFault (hf.explainedBy hpc hsp)⟩
    · obtain ⟨hwindow, _⟩ := fetchDecode_eq_ok.1 hi
      have hpc' : t.pc ≤ 256 := by have := hdone.pc_le; omega
      exact ⟨hdone.mem_wf hwf, hpc', hdone.sp_le hsp, hdone.flags_exclusive hflags, hdone.statusFits hrun hi⟩
  · rw [stepWith_of_not_running hrun] at h
    cases h
    exact hs

/-- Settles O3: a stopped engine keeps its state; a Running one takes a fault the state explains, or completes an
instruction, which keeps every clause. -/
theorem stepKeepsInvariant : Obligations.StepKeepsInvariant :=
  ⟨fun _ _ _ => stepWith_keeps_inv, fun _ _ => stepWith_keeps_inv⟩

/-- Settles O4, by induction on the budget. -/
theorem runKeepsInvariant : Obligations.RunKeepsInvariant :=
  fun _ _ _ _ => runWith_keeps fun _ _ => stepWith_keeps_inv

end Sys2Proof.Machine
end

section
/-! PROOFS of 30_encoding.md: decoding and encoding undo each other (sections 1 to 5). -/

namespace Sys2Proof

/-- A mnemonic takes its operands from the head of the window: bytes that begin with an instruction's operand bytes
give the instruction back (30_encoding.md R81, R88). -/
theorem toInstr_of_operandBytes_append {i : Instr} {a b : Byte} {rest rest' : List Byte}
    (h : i.operandBytes ++ rest = a :: b :: rest') : i.mnemonic.toInstr a b = i := by
  cases i with
  | hlt | ret => rfl
  | ldi n imm | add n imm | mul n imm | cmp n imm =>
    obtain ⟨rfl, rfl, _⟩ : n = a ∧ imm = b ∧ rest = rest' := by simpa [Instr.operandBytes] using h
    rfl
  | prn n | push n | pop n | call n | jmp n | jeq n | jne n =>
    obtain ⟨rfl, _⟩ : n = a ∧ rest = b :: rest' := by simpa [Instr.operandBytes] using h
    rfl

/-- The operand bytes of the instruction a mnemonic makes are the first of the two given (30_encoding.md R88). -/
theorem operandBytes_toInstr_prefix (k : Mnemonic) (a b : Byte) : (k.toInstr a b).operandBytes <+: [a, b] := by
  cases k with
  | hlt | ret => exact List.nil_prefix
  | ldi | add | mul | cmp => exact List.prefix_rfl
  | prn | push | pop | call | jmp | jeq | jne => exact ⟨[b], rfl⟩

/-- Settles O11: the opcode byte of a valid map finds its mnemonic, which takes back the operand bytes. -/
theorem decodeEncodeRoundTrip : Obligations.DecodeEncodeRoundTrip := by
  intro m hm i rest hlen
  obtain ⟨a, b, rest', htail⟩ : ∃ a b rest', i.operandBytes ++ rest = a :: b :: rest' := by
    match htail : i.operandBytes ++ rest with
    | [] | [_] => simp [encode, htail] at hlen
    | a :: b :: rest' => exact ⟨a, b, rest', rfl⟩
  rw [encode, List.cons_append, htail, decode, decodeWindow_eq_ok]
  exact ⟨i.mnemonic, hm.lookup_eq_some.2 rfl, (toInstr_of_operandBytes_append htail).symm⟩

/-- Settles O12: the byte of the mnemonic found is the opcode byte, and its operand bytes come first in the rest. -/
theorem encodeOfDecodedIsPrefix : Obligations.EncodeOfDecodedIsPrefix := by
  intro m op a b i h
  obtain ⟨k, hk, rfl⟩ := decodeWindow_eq_ok.1 h
  obtain rfl : m k = op := OpcodeMap.byte_of_lookup hk
  rw [encode, Mnemonic.toInstr_mnemonic, List.prefix_cons_inj]
  exact operandBytes_toInstr_prefix k a b

/-- A byte stands for no mnemonic exactly when it is not among the bytes of the map. -/
theorem OpcodeMap.lookup_eq_none_iff_notMem {m : OpcodeMap} {op : Byte} :
    m.lookup op = none ↔ op ∉ Mnemonic.all.map m := by
  rw [OpcodeMap.lookup_eq_none, List.mem_map]
  constructor
  · rintro h ⟨k, _, hk⟩
    exact h k hk
  · intro h k hk
    exact h ⟨k, Mnemonic.mem_all k, hk⟩

/-- Settles O15: the words by evaluation; the thirteen bytes listed are the default map's, in another order. -/
theorem defaultMapWordsDecode : Obligations.DefaultMapWordsDecode := by
  refine ⟨rfl, rfl, rfl, rfl, rfl, rfl, rfl, fun op => ?_⟩
  have hbytes : ([0x01, 0x11, 0x45, 0x46, 0x47, 0x50, 0x54, 0x55, 0x56, 0x82, 0xA0, 0xA2, 0xA7] : List Byte).Perm
      (Mnemonic.all.map defaultOpcodeMap) := by decide
  rw [OpcodeMap.lookup_eq_none_iff_notMem, hbytes.mem_iff]

end Sys2Proof
end

section
/-! PROOFS of 20_memory.md sections 1 and 2: the memory port's write, memory as what it reads, and who writes it. -/

namespace Sys2Proof.Machine

/-- A canonical memory has no cell outside the address space. -/
theorem Memory.read_of_memSize_le {a : Nat} (ha : Config.memSize ≤ a) :
    ∀ {lo : Nat} {m : Memory}, Memory.wfFrom lo m = true → m.read a = 0
  | _, [], _ => rfl
  | _, (k, v) :: rest, hm => by
    simp only [Memory.wfFrom, Bool.and_eq_true, decide_eq_true_eq] at hm
    obtain ⟨⟨⟨_, hk⟩, _⟩, hrest⟩ := hm
    have hka : k ≠ a := (hk.trans_le ha).ne
    simp only [Memory.read, hka, if_false]
    exact Memory.read_of_memSize_le ha hrest

/-- Settles O19: the port writes one cell of the list and nothing else, or raises its fault. -/
theorem writeThenReadMemory : Obligations.WriteThenReadMemory := by
  intro a v s hwf
  constructor
  · intro hlow hhigh
    lift a to Nat using hlow
    have ha : a ≤ 255 := by omega
    have hwrite : memWrite a v s = .ok (s.setMem (s.mem.write a v)) := memWrite_eq_ok.2 ⟨by omega, hhigh, rfl⟩
    have hread : memRead a (s.setMem (s.mem.write a v)) = .ok v := by
      rw [memRead_natCast ha, State.setMem_mem, Memory.read_write_self hwf]
    exact ⟨_, hwrite, hread, .of_mem_eq_write (State.setMem_mem ..), Memory.wf_write hwf (Nat.lt_succ_of_le ha) v,
      State.x_setMem s _, State.setMem_pc .., State.setMem_sp .., State.setMem_flags .., State.setMem_status ..,
      State.setMem_out ..⟩
  · intro hout
    exact memWrite_eq_error.2 ⟨hout, rfl⟩

/-- Settles O20: canonical memories agree outside the address space too, where both read 0. -/
theorem memoryIsWhatItReads : Obligations.MemoryIsWhatItReads := by
  intro s t hs ht hsame
  refine Memory.ext_of_wf hs ht fun a => ?_
  by_cases ha : a ≤ 255
  · have hread := hsame a
    rw [memRead_natCast ha, memRead_natCast ha] at hread
    exact (Except.ok.inj hread).symm
  · have hpast : Config.memSize ≤ a := Nat.lt_of_not_le ha
    rw [Memory.read_of_memSize_le hpast hs, Memory.read_of_memSize_le hpast ht]

/-- Memory with the cell at the push address written reads as before at every other address. -/
theorem sameMemoryExcept_of_push_write {s t : State} {v : Byte} (hroom : 1 ≤ s.sp)
    (h : t.mem = s.mem.write (s.sp - 1) v) : SameMemoryExcept (pushAddress s) s t := by
  rw [pushAddress_eq_pushed_sp v hroom]
  exact .of_mem_eq_write h

/-- Settles O51: the instruction that completes wrote the cell at the push address or no cell. -/
theorem memoryWrittenOnlyByPushAndCall : Obligations.MemoryWrittenOnlyByPushAndCall := by
  intro m s t a h hne
  obtain ⟨v, rfl⟩ | ⟨i, hat, hdone⟩ := stepWith_frame h
  · exact absurd (SameMemory.of_mem_eq (State.setStatus_mem s v) a) hne
  · obtain hsame | ⟨hi, hroom, _, v, hwrite⟩ := hdone.mem
    · exact absurd (SameMemory.of_mem_eq hsame a) hne
    · exact ⟨hat.or hi, not_not.1 fun hother => hne (sameMemoryExcept_of_push_write hroom hwrite a hother)⟩

end Sys2Proof.Machine
end

section
/-! PROOFS of 10_state.md: reset, and which instructions read or write each piece of state. -/

namespace Sys2Proof.Machine

@[simp] theorem x_reset (k : Fin 8) : State.reset.x k = 0 := by
  simp [State.x, State.reset]

/-- Settles O1: the reset state holds the table's values, and no cell that is not 0. -/
theorem resetStateValues : Obligations.ResetStateValues :=
  ⟨x_reset, rfl, rfl, rfl, rfl, rfl, rfl, rfl, fun _ hlow hhigh => memRead_eq_ok.2 ⟨hlow, hhigh, rfl⟩⟩

/-- Settles O2: reset is Running with empty memory, clear flags, pc 0 and sp 0xF3. -/
theorem resetSatisfiesInvariant : Obligations.ResetSatisfiesInvariant :=
  fun _ => ⟨rfl, by decide, by decide, rfl, rfl⟩

/-- Settles O50: what the instruction that completes does to sp. -/
theorem stackPointerChangedOnlyByStackInstructions : Obligations.StackPointerChangedOnlyByStackInstructions := by
  intro m s t h hne
  obtain ⟨v, rfl⟩ | ⟨i, hat, hdone⟩ := stepWith_frame h
  · exact absurd (State.setStatus_sp s v) hne
  · obtain hsame | ⟨hi, hroom, hdown⟩ | ⟨hi, _, hup⟩ := hdone.sp
    · exact absurd hsame hne
    · exact .inl ⟨hat.or hi, by omega⟩
    · exact .inr ⟨hat.or hi, hup⟩

/-- Settles O52: what the instruction that completes does to the output. -/
theorem outputOnlyGrowsByPrn : Obligations.OutputOnlyGrowsByPrn := by
  intro m s t h
  obtain ⟨v, rfl⟩ | ⟨i, hat, hdone⟩ := stepWith_frame h
  · exact .inl (State.setStatus_out s v)
  · exact hdone.out.imp_right fun ⟨hi, hgrows⟩ => ⟨hi ▸ hat, hgrows⟩

/-- A store changes only the register it names. -/
theorem eq_of_x_setX_ne {s : State} {j k : Fin 8} {v : Byte} (h : (s.setX j v).x k ≠ s.x k) : j = k := by
  by_contra hjk
  exact h (State.x_setX_ne s v hjk)

/-- Settles O53: LDI, ADD, MUL and POP store in the register of operand A; the others, and fault entry, keep the
register array. -/
theorem registersWrittenOnlyAsTabled : Obligations.RegistersWrittenOnlyAsTabled := by
  intro i s t k h hne
  obtain hdone | ⟨f, _, rfl⟩ := exec_eq_next_iff.1 h
  · cases hdone with
    | ldi j imm => obtain rfl := eq_of_x_setX_ne hne; exact .inl ⟨imm, rfl⟩
    | add i j => obtain rfl := eq_of_x_setX_ne hne; exact .inr (.inl ⟨_, rfl⟩)
    | mul i j => obtain rfl := eq_of_x_setX_ne hne; exact .inr (.inr (.inl ⟨_, rfl⟩))
    | pop j _ =>
      obtain rfl := eq_of_x_setX_ne (s := s.setSp (s.sp + 1)) hne
      exact .inr (.inr (.inr rfl))
    | _ => exact absurd rfl hne
  · exact absurd (x_takeFault f s k) hne

/-! ### L and G are read by no instruction (section 4) -/

/-- The state with other values of L and G. -/
def State.setLG (s : State) (l g : Bool) : State := s.setFlags ⟨s.flags.e, l, g⟩

/-- Two states that differ at most in L and G. -/
def SameButLG (s t : State) : Prop := s.setLG false false = t.setLG false false

theorem Completes.setLG {i : Instr} {s t : State} (h : Completes s i t) (l g : Bool) :
    ∃ t', Completes (s.setLG l g) i t' ∧ SameButLG t' t := by
  cases h with
  | hlt => exact ⟨_, .hlt, rfl⟩
  | ldi k imm => exact ⟨_, .ldi k imm, rfl⟩
  | prn k => exact ⟨_, .prn k, rfl⟩
  | add i j => exact ⟨_, .add i j, rfl⟩
  | mul i j => exact ⟨_, .mul i j, rfl⟩
  | cmp i j => exact ⟨_, .cmp i j, rfl⟩
  | push k hroom hsp => exact ⟨_, .push k hroom hsp, rfl⟩
  | pop k hsp => exact ⟨_, .pop k hsp, rfl⟩
  | call k hroom hsp => exact ⟨_, .call k hroom hsp, rfl⟩
  | ret hsp => exact ⟨_, .ret hsp, rfl⟩
  | jmp k => exact ⟨_, .jmp k, rfl⟩
  | jeqTaken k he => exact ⟨_, .jeqTaken k he, rfl⟩
  | jeqNotTaken n he => exact ⟨_, .jeqNotTaken n he, rfl⟩
  | jneTaken k he => exact ⟨_, .jneTaken k he, rfl⟩
  | jneNotTaken n he => exact ⟨_, .jneNotTaken n he, rfl⟩

theorem exec_setLG {i : Instr} {s t : State} (h : exec i s = .next t) (l g : Bool) :
    ∃ t', exec i (s.setLG l g) = .next t' ∧ SameButLG t' t := by
  obtain hdone | ⟨f, hf, rfl⟩ := exec_eq_next_iff.1 h
  · obtain ⟨t', hdone', hsame⟩ := hdone.setLG l g
    exact ⟨t', hdone'.exec_eq, hsame⟩
  · exact ⟨_, (hf.of_same_e_sp (s' := s.setLG l g) rfl rfl).exec_eq, rfl⟩

/-- Settles O32: fetch and decode read pc and memory only, and an instruction's phase reads E of the flags. -/
theorem noInstructionReadsLOrG : Obligations.NoInstructionReadsLOrG := by
  intro m s t l g h
  obtain ⟨hstop, rfl⟩ | ⟨hrun, ⟨f, hf, rfl⟩ | ⟨i, hi, hexec⟩⟩ := stepWith_cases h
  · exact ⟨_, stepWith_of_not_running (s := t.setLG l g) hstop, rfl⟩
  · exact ⟨_, stepWith_of_error (s := s.setLG l g) hrun hf, rfl⟩
  · obtain ⟨t', hexec', hsame⟩ := exec_setLG hexec l g
    exact ⟨t', (stepWith_of_ok (s := s.setLG l g) hrun hi).trans hexec', hsame⟩

/-! ### Register 7 is not the stack pointer (section 1, decision D16) -/

/-- Stores in two registers commute. -/
theorem State.setX_comm (s : State) {j k : Fin 8} (v w : Byte) (h : j ≠ k) :
    (s.setX j v).setX k w = (s.setX k w).setX j v := by
  refine State.ext_fields (fun n => ?_) rfl rfl rfl rfl rfl rfl
  simp only [State.x_setX]
  split
  · next hk => rw [if_neg (hk ▸ h)]
  · rfl

/-- One of the four stack instructions. -/
def IsStackInstr (i : Instr) : Prop :=
  i.mnemonic = .push ∨ i.mnemonic = .pop ∨ i.mnemonic = .call ∨ i.mnemonic = .ret

@[simp] theorem registerByte_inj {j k : Fin 8} : registerByte j = registerByte k ↔ j = k := by
  rw [← BitVec.toNat_inj, registerByte_toNat k, registerByte_eq_iff, eq_comm]

/-- A stack instruction that completes neither writes nor reads a register it does not name. -/
theorem Completes.setX_unnamed {i : Instr} {s t : State} {j : Fin 8} (h : Completes s i t)
    (hstack : IsStackInstr i) (hj : registerByte j ∉ i.registerOperands) (v : Byte) :
    t.x j = s.x j ∧ Completes (s.setX j v) i (t.setX j v) := by
  have hne {k : Fin 8} (hk : registerByte j ∉ [registerByte k]) : j ≠ k := by simpa using hk
  cases h with
  | push k hroom hsp =>
    refine ⟨rfl, ?_⟩
    rw [← State.x_setX_ne s v (hne hj)]
    exact .push k hroom hsp
  | pop k hsp =>
    refine ⟨State.x_setX_ne (s.setSp (s.sp + 1)) _ (hne hj).symm, ?_⟩
    change Completes _ _ ((((s.setSp (s.sp + 1)).setX k (s.mem.read s.sp)).setX j v).advance 2)
    rw [← State.setX_comm (s.setSp (s.sp + 1)) v (s.mem.read s.sp) (hne hj)]
    exact .pop k hsp
  | call k hroom hsp =>
    refine ⟨rfl, ?_⟩
    rw [← State.x_setX_ne s v (hne hj)]
    exact .call k hroom hsp
  | ret hsp => exact ⟨rfl, .ret hsp⟩
  | _ => simp [IsStackInstr, Instr.mnemonic] at hstack

/-- Settles O39: register 7 is not among the operands, so the phase completes alike or raises the same fault. -/
theorem registerSevenIsNotTheStackPointer : Obligations.RegisterSevenIsNotTheStackPointer := by
  intro i s t v hi h
  have hnamed : IsStackInstr i ∧ registerByte 7 ∉ i.registerOperands := by
    obtain rfl | ⟨k, hk, rfl | rfl | rfl⟩ := hi
    · simp [IsStackInstr, Instr.mnemonic, Instr.registerOperands]
    all_goals simp [IsStackInstr, Instr.mnemonic, Instr.registerOperands, hk.symm]
  obtain ⟨hstack, hseven⟩ := hnamed
  obtain hdone | ⟨f, hf, rfl⟩ := exec_eq_next_iff.1 h
  · obtain ⟨hkeeps, hdone'⟩ := hdone.setX_unnamed hstack hseven v
    exact ⟨hkeeps, hdone'.exec_eq⟩
  · exact ⟨x_takeFault f s 7, (hf.of_same_e_sp (s' := s.setX 7 v) rfl rfl).exec_eq⟩

end Sys2Proof.Machine
end

section
/-! PROOFS of 41_data_io.md: HLT, LDI, PRN and the text of the output. -/

namespace Sys2Proof.Machine

theorem eq_hlt_of_mnemonic {i : Instr} (h : i.mnemonic = .hlt) : i = .hlt := by
  cases i with
  | hlt => rfl
  | _ => cases h

/-- Settles O10: of the ways a step can end only HLT's completion is Halted, and the map's HLT byte decodes to it. -/
theorem haltedOnlyByHlt : Obligations.HaltedOnlyByHlt := by
  intro m s t hm hrun h
  have hinv (ht : t.status = .halted) : AtMnemonic m s .hlt ∧ t = s.setStatus .halted := by
    obtain ⟨f, _, rfl⟩ | ⟨i, hi, hdone⟩ := stepWith_running_cases hrun h
    · simp at ht
    · obtain hsame | ⟨rfl, rfl⟩ := hdone.status
      · simp [hsame, hrun] at ht
      · exact ⟨atMnemonic_of_fetchDecode hrun hi, rfl⟩
  refine ⟨⟨fun ht => (hinv ht).1, fun hat => ?_⟩, fun ht => (hinv ht).2⟩
  obtain ⟨i, hi, hname⟩ := hat.fetchDecode_ok hm
  obtain rfl := eq_hlt_of_mnemonic hname
  rw [stepWith_of_ok hrun hi] at h
  rw [Completes.hlt.eq_of_exec h, State.setStatus_status]

/-- Settles O21: HLT's completion writes the status only. -/
theorem hltResult : Obligations.HltResult :=
  fun _ => ⟨_, Completes.hlt.exec_eq, rfl, rfl, fun _ => rfl, rfl, rfl, .of_mem_eq rfl, rfl⟩

/-- A store and an advance change one register. -/
theorem sameRegistersExcept_setX (s : State) (k : Fin 8) (v : Byte) (n : Nat) :
    SameRegistersExcept k s ((s.setX k v).advance n) :=
  fun _ hj => State.x_setX_ne s v hj.symm

/-- Settles O22: the register stores the immediate byte as it is. -/
theorem ldiResult : Obligations.LdiResult :=
  fun s k imm => ⟨_, (Completes.ldi k imm).exec_eq, State.x_setX_self s k imm, sameRegistersExcept_setX s k imm 3,
    rfl, rfl, rfl, rfl, .of_mem_eq rfl, rfl⟩

/-- Settles O23: PRN's completion emits the register's value. -/
theorem prnResult : Obligations.PrnResult :=
  fun _ k => ⟨_, (Completes.prn k).exec_eq, rfl, fun _ => rfl, rfl, rfl, rfl, rfl, .of_mem_eq rfl⟩

theorem renderOutput_append_singleton (out : List Byte) (v : Byte) :
    renderOutput (out ++ [v]) = renderOutput out ++ renderValue v := by
  rw [renderOutput, List.foldl_append]
  rfl

/-- Settles O24: the text is folded from the left, one line a value. -/
theorem outputIsOneDecimalPerLine : Obligations.OutputIsOneDecimalPerLine :=
  ⟨renderOutput_append_singleton, by decide⟩

end Sys2Proof.Machine
end

section
/-! PROOFS of 42_alu.md section 2: ADD, MUL, CMP. -/

namespace Sys2Proof.Machine

/-- A register that stores an exact number holds it modulo 256 (10_state.md R21). -/
theorem x_setX_ofNat_toNat (s : State) (k : Fin 8) (n : Nat) :
    ((s.setX k (BitVec.ofNat 8 n)).x k).toNat = n % 256 := by
  rw [State.x_setX_self, BitVec.toNat_ofNat]

/-- Settles O25: the low byte of the exact sum is stored. -/
theorem addResult : Obligations.AddResult :=
  fun s i j => ⟨_, (Completes.add i j).exec_eq, x_setX_ofNat_toNat s i _, sameRegistersExcept_setX s i _ 3,
    rfl, rfl, rfl, rfl, .of_mem_eq rfl, rfl⟩

/-- Settles O26: the low byte of the exact product is stored. -/
theorem mulResult : Obligations.MulResult :=
  fun s i j => ⟨_, (Completes.mul i j).exec_eq, x_setX_ofNat_toNat s i _, sameRegistersExcept_setX s i _ 3,
    rfl, rfl, rfl, rfl, .of_mem_eq rfl, rfl⟩

/-- Settles O27: each flag is the decision of its comparison. -/
theorem cmpResult : Obligations.CmpResult :=
  fun _ i j => ⟨_, (Completes.cmp i j).exec_eq, decide_eq_true_iff, decide_eq_true_iff, decide_eq_true_iff,
    fun _ => rfl, rfl, rfl, rfl, .of_mem_eq rfl, rfl⟩

end Sys2Proof.Machine
end

section
/-! PROOFS of 43_stack.md: PUSH and POP, their faults and their round trip; 20_memory.md section 5. -/

namespace Sys2Proof.Machine

/-- With the cell at the push address written, every cell reads the value there and as before elsewhere. -/
theorem read_of_push_write {s t : State} {v : Byte} (hwf : s.mem.wf = true) (hroom : 1 ≤ s.sp)
    (h : t.mem = s.mem.write (s.sp - 1) v) (a : Nat) :
    t.mem.read a = if (a : Int) = pushAddress s then v else s.mem.read a := by
  rw [h, pushAddress]
  split
  · next ha =>
    obtain rfl : a = s.sp - 1 := by omega
    exact Memory.read_write_self hwf ..
  · next ha =>
    exact Memory.read_write_ne v (by omega) s.mem

/-- The value written at the push address is read back. -/
theorem memRead_of_push_write {s t : State} {v : Byte} (hwf : s.mem.wf = true) (hroom : 1 ≤ s.sp) (hsp : s.sp ≤ 256)
    (h : t.mem = s.mem.write (s.sp - 1) v) : memRead (pushAddress s) t = .ok v := by
  have haddr : pushAddress s = (s.sp - 1 : Nat) := pushAddress_eq_pushed_sp v hroom
  rw [haddr, memRead_natCast (by omega), read_of_push_write hwf hroom h, if_pos haddr.symm]

/-- Settles O35: PUSH's completion writes the cell at the push address, which becomes sp. -/
theorem pushResult : Obligations.PushResult :=
  fun s k hwf hroom hsp => ⟨_, (Completes.push k hroom hsp).exec_eq, (pushAddress_eq_pushed_sp (s.x k) hroom).symm,
    memRead_of_push_write hwf hroom hsp rfl, sameMemoryExcept_of_push_write hroom rfl,
    rfl, fun _ => rfl, rfl, rfl, rfl⟩

/-- Settles O36: the byte at sp is stored in the register and stays in memory. -/
theorem popResult : Obligations.PopResult := by
  intro s k hsp
  refine ⟨_, (Completes.pop k hsp).exec_eq, ?value, sameRegistersExcept_setX (s.setSp (s.sp + 1)) k _ 2,
    rfl, rfl, rfl, rfl, .of_mem_eq rfl, rfl⟩
  case value =>
    rw [State.x_advance, State.x_setX_self, memRead_natCast hsp]

/-- Settles O37: PUSH leaves sp at the byte it wrote, which is what POP reads. -/
theorem pushThenPopRoundTrip : Obligations.PushThenPopRoundTrip := by
  intro s i j hwf hroom hsp
  obtain ⟨t, hpush, hsp', hread, hmem, _, hregs, _⟩ := pushResult s i hwf hroom hsp
  have hlow : t.sp ≤ 255 := by rw [pushAddress] at hsp'; omega
  obtain ⟨u, hpop, hvalue, hregs', hup, _, _, _, hmem', _⟩ := popResult t j hlow
  rw [hsp', hread] at hvalue
  refine ⟨t, u, hpush, hpop, (Except.ok.inj hvalue).symm, fun k hk => (hregs' k hk).trans (hregs k), ?sp,
    fun b hb => (hmem' b).trans (hmem b hb)⟩
  case sp => rw [pushAddress] at hsp'; omega

/-- Settles O38: with the operand in range the stack access faults, at −1 below address 0 and at 256. -/
theorem stackAccessFaults : Obligations.StackAccessFaults := by
  intro s k
  constructor
  · intro hzero
    have haddr : pushAddress s = -1 := by rw [pushAddress, hzero]; rfl
    rw [← haddr]
    exact ⟨(Raises.push _ (registerByte_le k) (.inl hzero)).exec_eq,
      (Raises.call _ (registerByte_le k) (.inl hzero)).exec_eq⟩
  · intro htop
    have haddr : (s.sp : Int) = 256 := by omega
    rw [← haddr]
    exact ⟨(Raises.pop _ (registerByte_le k) (by omega)).exec_eq, (Raises.ret (by omega)).exec_eq⟩

/-- The return address keeps all of pc + 2 where a fetch has passed (44_control.md R191). -/
theorem returnAddress_toNat {s : State} (hpc : s.pc ≤ 253) : (returnAddress s).toNat = s.pc + 2 := by
  rw [returnAddress, BitVec.toNat_ofNat]
  omega

/-- Settles O40: fetch reads the memory that the PUSH or CALL left, which is the old one with one cell written. -/
theorem fetchSeesStackWrites : Obligations.FetchSeesStackWrites := by
  intro s i t v k p hwf hroom hsp hpc hp hi h
  have hmem : t.mem = s.mem.write (s.sp - 1) v := by
    obtain ⟨rfl, rfl⟩ | ⟨rfl, hv⟩ := hi
    · rw [(Completes.push k hroom hsp).eq_of_exec h]
      rfl
    · obtain rfl : v = returnAddress s := BitVec.eq_of_toNat_eq (hv.trans (returnAddress_toNat hpc).symm)
      rw [(Completes.call k hroom hsp).eq_of_exec h]
      rfl
  have hread := read_of_push_write hwf hroom hmem
  exact ⟨_, fetch_eq_ok.2 ⟨hp, rfl⟩, hread p, hread (p + 1), hread (p + 2)⟩

end Sys2Proof.Machine
end

section
/-! PROOFS of 44_control.md: CALL, RET and the jumps. -/

namespace Sys2Proof.Machine

/-- Settles O41: CALL pushes pc + 2, which fits in a byte after a fetch. -/
theorem callResult : Obligations.CallResult :=
  fun s k hwf hroom hsp hpc => ⟨_, (Completes.call k hroom hsp).exec_eq, rfl,
    (pushAddress_eq_pushed_sp (returnAddress s) hroom).symm,
    ⟨_, memRead_of_push_write hwf hroom hsp rfl, returnAddress_toNat hpc⟩, sameMemoryExcept_of_push_write hroom rfl,
    fun _ => rfl, rfl, rfl, rfl⟩

/-- Settles O42: RET's completion reads the byte at sp as the new pc. -/
theorem retResult : Obligations.RetResult :=
  fun s hsp => ⟨_, (Completes.ret hsp).exec_eq, ⟨_, memRead_natCast hsp s, rfl⟩, rfl, fun _ => rfl, rfl, rfl,
    .of_mem_eq rfl, rfl⟩

/-- Settles O46: RET reads the byte at the sp that CALL left, where CALL wrote pc + 2. -/
theorem callThenRetReturns : Obligations.CallThenRetReturns := by
  intro s k t u hwf hroom hsp hpc hcall husp huread
  obtain ⟨t', hcall', _, hdown, ⟨v, hv, hreturn⟩, _⟩ := callResult s k hwf hroom hsp hpc
  rw [hcall] at hcall'
  cases hcall'
  rw [← hdown, ← huread] at hv
  rw [pushAddress] at hdown
  obtain ⟨w, hret, ⟨b, hb, hwpc⟩, hup, _⟩ := retResult u (by omega)
  obtain rfl : b = v := Except.ok.inj (hb.symm.trans hv)
  exact ⟨w, hret, hwpc.trans hreturn, by omega⟩

/-- A jump, taken or not, writes pc only (44_control.md R190). -/
theorem setPc_frame (s : State) (v : Nat) : (s.setPc v).pc = v ∧ SameRegisters s (s.setPc v) ∧ (s.setPc v).sp = s.sp ∧
    (s.setPc v).flags = s.flags ∧ (s.setPc v).status = s.status ∧ SameMemory s (s.setPc v) ∧
    (s.setPc v).out = s.out :=
  ⟨State.setPc_pc .., State.x_setPc s v, State.setPc_sp .., State.setPc_flags .., State.setPc_status ..,
    .of_mem_eq (State.setPc_mem ..), State.setPc_out ..⟩

/-- Settles O43: JMP's completion writes pc only. -/
theorem jmpResult : Obligations.JmpResult :=
  fun s k => ⟨_, (Completes.jmp k).exec_eq, setPc_frame s _⟩

/-- Settles O44: each value of E has one completion, which writes pc only. -/
theorem jeqResult : Obligations.JeqResult := by
  intro s
  constructor
  · intro he k
    exact ⟨_, (Completes.jeqTaken k he).exec_eq, setPc_frame s _⟩
  · intro he n
    exact ⟨_, (Completes.jeqNotTaken n he).exec_eq, setPc_frame s _⟩

/-- Settles O45: each value of E has one completion, which writes pc only. -/
theorem jneResult : Obligations.JneResult := by
  intro s
  constructor
  · intro he k
    exact ⟨_, (Completes.jneTaken k he).exec_eq, setPc_frame s _⟩
  · intro he n
    exact ⟨_, (Completes.jneNotTaken n he).exec_eq, setPc_frame s _⟩

end Sys2Proof.Machine
end

section
/-! PROOFS of 60_exceptions.md: fault entry (section 3), the reported operand (section 2), and the cause that no
program reaches (R223). -/

namespace Sys2Proof.Machine

/-- A step of a Running engine that ends Faulted took a fault that the step raised. -/
theorem stepWith_faulted {m : OpcodeMap} {s t : State} {r : FaultRecord} (hrun : s.status = .running)
    (h : stepWith m s = .next t) (ht : t.status = .faulted r) :
    StepRaises m s r.cause ∧ r.pc = s.pc ∧ t = s.setStatus (.faulted r) := by
  obtain ⟨f, hf, rfl⟩ | ⟨i, _, hdone⟩ := stepWith_running_cases hrun h
  · cases ht
    exact ⟨hf, rfl, rfl⟩
  · obtain hsame | ⟨_, rfl⟩ := hdone.status
    · simp [hsame, hrun] at ht
    · simp at ht

/-- Settles O9: commit and step both answer `takeFault`, and nothing else ends Faulted. -/
theorem faultEntryChangesOnlyStatus : Obligations.FaultEntryChangesOnlyStatus := by
  refine ⟨commit_error, fun m s hrun => ⟨fun f hf => stepWith_of_error hrun hf, fun t r h ht => ?_⟩⟩
  obtain ⟨_, hpc, rfl⟩ := stepWith_faulted hrun h ht
  exact ⟨rfl, hpc⟩

/-- No phase of a step raises the ALU's own fault (60_exceptions.md R223). -/
theorem StepRaises.ne_unsupportedALUOperation {m : OpcodeMap} {s : State} {f : Fault} (h : StepRaises m s f)
    (op : AluOp) : f ≠ .unsupportedALUOperation op := by
  rintro rfl
  obtain hf | ⟨i, _, hf⟩ := h
  · simp [fetchDecode_eq_error] at hf
  · cases hf

/-- Settles O30: the ALU's fault comes of another selector only, and no instruction hands it one. -/
theorem unsupportedAluOperation : Obligations.UnsupportedAluOperation := by
  refine ⟨fun n a b s => ⟨rfl, rfl⟩, fun m s t r op hrun h ht => ?_⟩
  obtain ⟨hraised, _⟩ := stepWith_faulted hrun h ht
  exact hraised.ne_unsupportedALUOperation op

/-- Settles O49: the operands are checked in order before the phase does anything else. -/
theorem firstBadOperandIsReported : Obligations.FirstBadOperandIsReported :=
  fun _ _ _ hv => (Raises.operand hv).exec_eq

end Sys2Proof.Machine
end

section
/-! PROOFS of 70_reset_and_hazards.md section 2: what a load takes, and the launch state. -/

namespace Sys2Proof.Machine

/-- Settles O55: success of `loadBytes` is the three conditions, in that order. -/
theorem loadIsAllOrNothing : Obligations.LoadIsAllOrNothing := by
  intro p s
  simp only [loadBytes_eq_ok]
  constructor
  · rintro ⟨_, hreset, hfit, hvalues, _⟩
    exact ⟨hreset, hfit, hvalues⟩
  · rintro ⟨hreset, hfit, hvalues⟩
    exact ⟨_, hreset, hfit, hvalues, rfl⟩

/-- The launch state of an image that fits is the reset state with the image in memory. -/
theorem launch_eq {p : List Byte} (hfit : p.length ≤ 256) : launch p = State.reset.setMem (Memory.load [] 0 p) := by
  rw [launch, loadBytes_image hfit]

/-- Settles O56: a load writes memory alone, so all else is as at reset, and it keeps memory canonical. -/
theorem launchState : Obligations.LaunchState := by
  intro m p hfit
  have hwf : (Memory.load [] 0 p).wf = true := Memory.wf_load p rfl (by simpa using hfit)
  obtain ⟨_, hpc, hsp, hflags, hfits⟩ := resetSatisfiesInvariant m
  rw [launch_eq hfit]
  exact ⟨loadBytes_image hfit, rfl, rfl, rfl, rfl, rfl, x_reset, hwf, hpc, hsp, hflags, hfits⟩

end Sys2Proof.Machine
end
